-- ==== Sys2Proof/Word.lean ====
section
/-! DEFINITION. The one word of the block: a byte (00_scope.md R3, R4 `BYTE_W`, section 5.1). -/

namespace Sys2Proof

/-- An 8-bit unsigned value; all comparisons of the spec are unsigned (00_scope.md section 5.1). -/
abbrev Byte := BitVec 8

/-- `b` lies in the closed range `lo` to `hi`, compared as unsigned numbers. -/
def Byte.inRange (lo hi b : Byte) : Bool := decide (lo ≤ b) && decide (b ≤ hi)

end Sys2Proof
end

