-- ==== Sys2Proof/Syntax.lean ====
section
/-! DEFINITION. The instructions: one constructor for each row of opcode_table.json (30_encoding.md R48).
The mapping of the word "instruction" is 00_scope.md section 1: a byte for the Decoder, an emitted
sequence of length 2 or more for the Dispatcher. -/

namespace Sys2Proof

/-- The rows of opcode_table.json. The first six have the format RXBYTE, the last seven the format TAG and the
operand `payload = f[1:]` (30_encoding.md R39). `low` holds the bits of the tag the row's mask leaves free. -/
inductive Instr where
  /-- Row `END`, byte 0xC0 (40_decoder.md R52). -/
  | frameEnd
  /-- Row `ESC`, byte 0xDB (R51). -/
  | esc
  /-- Row `ESC_END`, byte 0xDC (R53). -/
  | escEnd
  /-- Row `ESC_ESC`, byte 0xDD (R53). -/
  | escEsc
  /-- Row `PAD`, byte 0x00 (R53). -/
  | pad
  /-- Row `DATA`, every other byte (R53). -/
  | data (b : Byte)
  /-- Row `DEBUG`, tag 0x0A (41_dispatcher.md R74). -/
  | debug (payload : List Byte)
  /-- Row `COAP`, tag 0xA9 (R78). -/
  | coap (payload : List Byte)
  /-- Row `IPV4_45`, tag 0x45 (R76). -/
  | ipv4At45 (payload : List Byte)
  /-- Row `IPV4_46_47`, tags 0x46 and 0x47 (R76). -/
  | ipv4At46 (low : BitVec 1) (payload : List Byte)
  /-- Row `IPV4_48_4F`, tags 0x48 to 0x4F (R76). -/
  | ipv4At48 (low : BitVec 3) (payload : List Byte)
  /-- Row `IPV6`, tags 0x60 to 0x6F (R77). -/
  | ipv6 (low : BitVec 4) (payload : List Byte)
  /-- Row `UNKNOWN`, every other tag (R79). -/
  | unknown (tag : Byte) (payload : List Byte)
  deriving DecidableEq, Repr

end Sys2Proof
end

