-- ==== Sys2Proof/WellFormed.lean ====
section
/-! DEFINITION. Which terms of `Instr` are instructions of the block: a byte or tag stands under the row that
catches it (30_encoding.md R36, R41), and a frame that reaches a handler has a payload (41_dispatcher.md R73). -/

namespace Sys2Proof

/-- The bytes the catch-all row `DATA` is left with: none of the five named rows (R36, R48). -/
def isPlainData (b : Byte) : Bool :=
  !(b == 0xC0#8 || b == 0xDB#8 || b == 0xDC#8 || b == 0xDD#8 || b == 0x00#8)

/-- The tags of class UNKNOWN, by the value list of R41. -/
def isUnknownTag (t : Byte) : Bool :=
  Byte.inRange 0x00#8 0x09#8 t || Byte.inRange 0x0B#8 0x44#8 t || Byte.inRange 0x50#8 0x5F#8 t ||
    Byte.inRange 0x70#8 0xA8#8 t || Byte.inRange 0xAA#8 0xFF#8 t

/-- An actionable frame has at least one payload byte (30_encoding.md R38, 41_dispatcher.md R73). -/
def hasPayload (p : List Byte) : Bool := !p.isEmpty

/-- The instructions the block can meet. -/
def Instr.wellFormed : Instr → Bool
  | .frameEnd => true
  | .esc => true
  | .escEnd => true
  | .escEsc => true
  | .pad => true
  | .data b => isPlainData b
  | .debug p => hasPayload p
  | .coap p => hasPayload p
  | .ipv4At45 p => hasPayload p
  | .ipv4At46 _ p => hasPayload p
  | .ipv4At48 _ p => hasPayload p
  | .ipv6 _ p => hasPayload p
  | .unknown t p => isUnknownTag t && hasPayload p

end Sys2Proof
end

