-- ==== Sys2Proof/Decode.lean ====
section
/-! DEFINITION. The two class tables of the wire format, the decoder from bytes to instructions, the encoder
back, and the sender's stuffing (30_encoding.md). -/

namespace Sys2Proof

/-! ## The protocol constants (00_scope.md R3) -/

/-- `END`, the frame delimiter. -/
abbrev wireEND : Byte := 0xC0#8
/-- `ESC`, the escape prefix. -/
abbrev wireESC : Byte := 0xDB#8
/-- `ESC_END`, the code byte that stands for 0xC0 after `ESC`. -/
abbrev wireESC_END : Byte := 0xDC#8
/-- `ESC_ESC`, the code byte that stands for 0xDB after `ESC`. -/
abbrev wireESC_ESC : Byte := 0xDD#8
/-- `PAD`, the idle-padding value. -/
abbrev wirePAD : Byte := 0x00#8

/-! ## The opcode table (R48) -/

/-- The two formats of opcode_table.json: a byte of RX, an emitted sequence (R35). -/
inductive Format where
  | rxbyte
  | tag
  deriving DecidableEq, Repr

/-- One row: a word `w` selects it when `w AND mask = pattern` (R48). -/
structure TableRow (ρ : Type) where
  mask : Byte
  pattern : Byte
  row : ρ
  deriving DecidableEq, Repr

def TableRow.selects {ρ : Type} (r : TableRow ρ) (w : Byte) : Bool := w &&& r.mask == r.pattern

/-- The first row of `rows` that selects `w` wins; `catchAll` is the row of mask 0x00 that ends the format (R48). -/
def firstRow {ρ : Type} (catchAll : ρ) : List (TableRow ρ) → Byte → ρ
  | [], _ => catchAll
  | r :: rows, w => if r.selects w then r.row else firstRow catchAll rows w

/-- The names of the RXBYTE rows. -/
inductive ByteRow where
  | frameEnd
  | esc
  | escEnd
  | escEsc
  | pad
  | data
  deriving DecidableEq, Repr

/-- The RXBYTE rows before the catch-all `DATA`, in priority order. -/
def byteRows : List (TableRow ByteRow) := [
  { mask := 0xFF#8, pattern := 0xC0#8, row := .frameEnd },
  { mask := 0xFF#8, pattern := 0xDB#8, row := .esc },
  { mask := 0xFF#8, pattern := 0xDC#8, row := .escEnd },
  { mask := 0xFF#8, pattern := 0xDD#8, row := .escEsc },
  { mask := 0xFF#8, pattern := 0x00#8, row := .pad } ]

/-- The RXBYTE row of a byte. -/
def byteRow (b : Byte) : ByteRow := firstRow .data byteRows b

/-- The names of the TAG rows. -/
inductive TagRow where
  | debug
  | coap
  | ipv4At45
  | ipv4At46
  | ipv4At48
  | ipv6
  | unknown
  deriving DecidableEq, Repr

/-- The TAG rows before the catch-all `UNKNOWN`, in priority order. -/
def tagRows : List (TableRow TagRow) := [
  { mask := 0xFF#8, pattern := 0x0A#8, row := .debug },
  { mask := 0xFF#8, pattern := 0xA9#8, row := .coap },
  { mask := 0xFF#8, pattern := 0x45#8, row := .ipv4At45 },
  { mask := 0xFE#8, pattern := 0x46#8, row := .ipv4At46 },
  { mask := 0xF8#8, pattern := 0x48#8, row := .ipv4At48 },
  { mask := 0xF0#8, pattern := 0x60#8, row := .ipv6 } ]

/-- The TAG row of a tag. -/
def tagRow (t : Byte) : TagRow := firstRow .unknown tagRows t

/-! ## The classes of the prose (R36, R41, R42) -/

/-- The Decoder's three byte classes (R36). -/
inductive ByteClass where
  | esc
  | frameEnd
  | data
  deriving DecidableEq, Repr

/-- The class of a byte, chosen by its value alone (R36, 40_decoder.md R50). -/
def byteClass (b : Byte) : ByteClass :=
  if b = wireESC then .esc else if b = wireEND then .frameEnd else .data

/-- The class of an RXBYTE row (its "class" entry in the table). -/
def ByteRow.cls : ByteRow → ByteClass
  | .frameEnd => .frameEnd
  | .esc => .esc
  | .escEnd => .data
  | .escEsc => .data
  | .pad => .data
  | .data => .data

/-- The Dispatcher's five tag classes (R41). -/
inductive TagClass where
  | ipv4
  | ipv6
  | debug
  | coap
  | unknown
  deriving DecidableEq, Repr

/-- `class(t)`, as R42 writes it. -/
def tagClass (t : Byte) : TagClass :=
  if Byte.inRange 0x45#8 0x4F#8 t then .ipv4
  else if Byte.inRange 0x60#8 0x6F#8 t then .ipv6
  else if t = 0x0A#8 then .debug
  else if t = 0xA9#8 then .coap
  else .unknown

/-- The class of a TAG row (its "class" entry in the table). -/
def TagRow.cls : TagRow → TagClass
  | .debug => .debug
  | .coap => .coap
  | .ipv4At45 => .ipv4
  | .ipv4At46 => .ipv4
  | .ipv4At48 => .ipv4
  | .ipv6 => .ipv6
  | .unknown => .unknown

/-! ## The free bits of the masked TAG rows -/

/-- Bit 0 of a tag of row IPV4_46_47, the bit its mask leaves free. -/
def lowOf46 (t : Byte) : BitVec 1 := t.extractLsb' 0 1
/-- Bits 2 to 0 of a tag of row IPV4_48_4F. -/
def lowOf48 (t : Byte) : BitVec 3 := t.extractLsb' 0 3
/-- Bits 3 to 0 of a tag of row IPV6. -/
def lowOf60 (t : Byte) : BitVec 4 := t.extractLsb' 0 4
/-- The tag 0x46 or 0x47 with the given free bit. -/
def tagOf46 (low : BitVec 1) : Byte := 0x23#7 ++ low
/-- The tag 0x48 to 0x4F with the given free bits. -/
def tagOf48 (low : BitVec 3) : Byte := 0x09#5 ++ low
/-- The tag 0x60 to 0x6F with the given free bits. -/
def tagOf60 (low : BitVec 4) : Byte := 0x6#4 ++ low

/-! ## The decoder -/

/-- The instruction of one RX byte: every byte is one (R36, R44). -/
def decodeByte (b : Byte) : Instr :=
  match byteRow b with
  | .frameEnd => .frameEnd
  | .esc => .esc
  | .escEnd => .escEnd
  | .escEsc => .escEsc
  | .pad => .pad
  | .data => .data b

/-- The instruction of a tag and its payload (R39, R41). -/
def decodeTag (t : Byte) (payload : List Byte) : Instr :=
  match tagRow t with
  | .debug => .debug payload
  | .coap => .coap payload
  | .ipv4At45 => .ipv4At45 payload
  | .ipv4At46 => .ipv4At46 (lowOf46 t) payload
  | .ipv4At48 => .ipv4At48 (lowOf48 t) payload
  | .ipv6 => .ipv6 (lowOf60 t) payload
  | .unknown => .unknown t payload

/-- Why bytes hold no instruction. None of the three is an error of the block: with no byte it is idle, and the
Dispatcher discards sequences of length 0 and 1 (41_dispatcher.md R72). -/
inductive NoInstr where
  /-- RXBYTE: no byte of RX is there (20_memory.md R21). -/
  | noByte
  /-- TAG: the empty emitted sequence has no tag (R38). -/
  | emptySequence
  /-- TAG: a one-byte sequence carries no actionable content (R38). -/
  | loneTag (tag : Byte)
  deriving DecidableEq, Repr

/-- The decoder, total on any bytes: the instruction and the bytes it leaves. An RXBYTE instruction takes one byte
of RX (R45: no instruction is longer), a TAG instruction takes a whole emitted sequence (R39). -/
def decode : Format → List Byte → Except NoInstr (Instr × List Byte)
  | .rxbyte, [] => .error .noByte
  | .rxbyte, b :: rest => .ok (decodeByte b, rest)
  | .tag, [] => .error .emptySequence
  | .tag, [t] => .error (.loneTag t)
  | .tag, t :: p :: ps => .ok (decodeTag t (p :: ps), [])

/-! ## The encoder -/

/-- The format of an instruction's row. -/
def Instr.format : Instr → Format
  | .frameEnd => .rxbyte
  | .esc => .rxbyte
  | .escEnd => .rxbyte
  | .escEsc => .rxbyte
  | .pad => .rxbyte
  | .data _ => .rxbyte
  | .debug _ => .tag
  | .coap _ => .tag
  | .ipv4At45 _ => .tag
  | .ipv4At46 _ _ => .tag
  | .ipv4At48 _ _ => .tag
  | .ipv6 _ _ => .tag
  | .unknown _ _ => .tag

/-- The bytes of an instruction: the RX byte, or the emitted sequence `[tag] ++ payload` (R35 to R41). -/
def encode : Instr → List Byte
  | .frameEnd => [0xC0#8]
  | .esc => [0xDB#8]
  | .escEnd => [0xDC#8]
  | .escEsc => [0xDD#8]
  | .pad => [0x00#8]
  | .data b => [b]
  | .debug p => 0x0A#8 :: p
  | .coap p => 0xA9#8 :: p
  | .ipv4At45 p => 0x45#8 :: p
  | .ipv4At46 low p => tagOf46 low :: p
  | .ipv4At48 low p => tagOf48 low :: p
  | .ipv6 low p => tagOf60 low :: p
  | .unknown t p => t :: p

/-- `stuff(F)`: the sender's stuffing (R46). It is no part of the hardware. -/
def stuff : List Byte → List Byte
  | [] => []
  | b :: t =>
    if b = wireEND then wireESC :: wireESC_END :: stuff t
    else if b = wireESC then wireESC :: wireESC_ESC :: stuff t
    else b :: stuff t

/-- `FRAME(F)`: the bytes a correct sender puts on the wire (R47). -/
def frameBytes (f : List Byte) : List Byte := stuff f ++ [wireEND]

/-! ## Reading a word of opcode_table.json (host interface, log entry 6) -/

/-- The bytes of a table word of `nbits` bits, bit 0 the least significant bit of the first. -/
def tableBytes (nbits w : Nat) : List Byte :=
  (List.range ((nbits + 7) / 8)).map fun k => BitVec.ofNat 8 (w >>> (8 * k))

/-- The instruction of one table byte. The two formats share the 256 words, so a named row of either format comes
first; a word under no named row is `DATA` below 0x80 and `UNKNOWN` from 0x80 up. A TAG row gets the shortest
payload a handler can get, one zero byte. DESIGN CHOICE (log entry 6): no step reads this function. -/
def decodeTableByte (b : Byte) : Instr :=
  if byteRow b ≠ .data then decodeByte b
  else if tagRow b ≠ .unknown then decodeTag b [0x00#8]
  else if b < 0x80#8 then decodeByte b
  else decodeTag b [0x00#8]

/-- The instruction the decoder reads from a table word: one byte by `decodeTableByte`, more bytes as an emitted
sequence. -/
def decodeTableWord (nbits w : Nat) : Option Instr :=
  match tableBytes nbits w with
  | [] => none
  | [b] => some (decodeTableByte b)
  | t :: p :: ps => some (decodeTag t (p :: ps))

end Sys2Proof
end

