-- ==== Sys2Proof/Config.lean ====
section
/-! DEFINITION. The open parameters of the block (00_scope.md R4) and their defaults. -/

namespace Sys2Proof

/-- The two OPEN parameters of 00_scope.md R4. They are configuration: no step writes them (10_state.md R14).
DESIGN CHOICE (log entry 1): a state carries them in its field `cfg`, so that a statement over all states
holds for every value of them. -/
structure Config where
  /-- `BUF_CAP`: `none` is INF, the source's own unbounded buffer. -/
  bufCap : Option Nat
  /-- `UNIMPL_FATAL`: whether an unimplemented frame kind halts the block. -/
  unimplFatal : Bool
  deriving DecidableEq, Repr

/-- The defaults R4 gives: `BUF_CAP = INF`, `UNIMPL_FATAL = true`. -/
def Config.standard : Config := { bufCap := none, unimplFatal := true }

end Sys2Proof
end

