-- ==== Sys2Proof/Machine/State.lean ====
section
/-! DEFINITION. The state of the block and of its streams, the condition records, and the reasons a step can stop
(10_state.md, 20_memory.md R20, 60_exceptions.md R101). -/

namespace Sys2Proof.Machine

/-- The three recognised but unimplemented frame kinds (60_exceptions.md R102). -/
inductive FrameKind where
  | ipv4
  | ipv6
  | coap
  deriving DecidableEq, Repr

/-- A condition with its information: the record `(cause, info)` of COND and of `fault` (R101). The numeric codes
are `Condition.cause`. -/
inductive Condition where
  /-- Causes 1 to 3: an actionable frame of a kind without handler (R102). -/
  | unimplemented (kind : FrameKind) (tag : Byte)
  /-- Cause 4: an actionable frame with a tag of class UNKNOWN (R103). -/
  | unknownTag (tag : Byte)
  /-- Cause 5: a debug payload that is not UTF-8; `pos` is an offset in the payload (R104, 42_utf8_text.md R93). -/
  | malformedText (pos : Nat) (byte : Byte)
  /-- Cause 6: a data byte that met a full buffer (R110). -/
  | bufOverflow (byte : Byte)
  deriving DecidableEq, Repr

/-- A record of DIAG. The spec fixes one kind (41_dispatcher.md R71, 60_exceptions.md R117; log entry 9). -/
inductive DiagRecord where
  | frameReceived (f : List Byte)
  deriving DecidableEq, Repr

/-- The block, its parameters and its streams. -/
structure State where
  /-- The parameters of 00_scope.md R4; no step writes them (log entry 1). -/
  cfg : Config
  /-- RX: the bytes delivered and not yet consumed, next one first (20_memory.md R21; log entry 2). -/
  rx : List Byte
  /-- The environment has signalled end of stream (60_exceptions.md R112; log entry 11). -/
  rxEnded : Bool
  /-- The number of bytes consumed since reset (10_state.md R13). -/
  rxpos : Nat
  /-- The accumulation buffer, index 0 appended first (10_state.md R11). -/
  buf : List Byte
  /-- The escape flag (10_state.md R12). -/
  esc : Bool
  /-- The sticky fault record (10_state.md R14). -/
  fault : Option Condition
  /-- HOST_OUT, the bytes appended so far (20_memory.md R23). -/
  hostOut : List Byte
  /-- COND, the records appended so far (20_memory.md R24). -/
  cond : List Condition
  /-- DIAG, the records appended so far (20_memory.md R25). -/
  diag : List DiagRecord
  deriving DecidableEq, Repr

/-- Why the machine takes no step. -/
inductive Fault where
  /-- Raised by `step` on a state whose `fault` record is set: the block is halted and no step is enabled
  (60_exceptions.md R107). Safe: the spec gives a halted block no behaviour. -/
  | halted (record : Condition)
  deriving DecidableEq, Repr

/-- Why an instruction has no meaning. -/
inductive Refusal where
  /-- Raised by an arm of `exec` whose instruction has no meaning yet; no arm does. Safe. -/
  | notModelled (mnemonic : String)
  deriving DecidableEq, Repr

/-- The state a run starts in under the parameters `cfg`: the reset values of 10_state.md R17, with nothing on any
stream (R17: "a model that starts a run starts them empty"; log entries 2 and 14). -/
def State.resetWith (cfg : Config) : State :=
  { cfg := cfg, rx := [], rxEnded := false, rxpos := 0, buf := [], esc := false, fault := none,
    hostOut := [], cond := [], diag := [] }

/-- The machine right after reset under the default parameters of 00_scope.md R4. -/
def State.reset : State := State.resetWith Config.standard

end Sys2Proof.Machine
end

