-- ==== Sys2Proof/Machine/Conditions.lean ====
section
/-! DEFINITION. Codes, groups, fatality and record layout of the conditions (60_exceptions.md R101, 10_state.md R14). -/

namespace Sys2Proof.Machine

/-- The distinction the source requires between "unsupported feature" and "corrupt stream" (R101). -/
inductive CondGroup where
  | unsupportedFeature
  | corruptStream
  | resource
  deriving DecidableEq, Repr

/-- The 3-bit cause code, 1 to 6 (R101, 92_eei_decisions.md D5). -/
def Condition.cause : Condition → BitVec 3
  | .unimplemented .ipv4 _ => 1
  | .unimplemented .ipv6 _ => 2
  | .unimplemented .coap _ => 3
  | .unknownTag _ => 4
  | .malformedText _ _ => 5
  | .bufOverflow _ => 6

/-- The group of a condition (R101). -/
def Condition.group : Condition → CondGroup
  | .unimplemented _ _ => .unsupportedFeature
  | .unknownTag _ => .corruptStream
  | .malformedText _ _ => .corruptStream
  | .bufOverflow _ => .resource

/-- Fatality (R101, last column): unimplemented kinds iff `UNIMPL_FATAL`, everything else always. -/
def Condition.isFatal (cfg : Config) : Condition → Bool
  | .unimplemented _ _ => cfg.unimplFatal
  | .unknownTag _ => true
  | .malformedText _ _ => true
  | .bufOverflow _ => true

/-- The field `info.tag` of the record: the tag of causes 1 to 4, the rejected byte of cause 6 (10_state.md R14). -/
def Condition.infoTag : Condition → Option Byte
  | .unimplemented _ t => some t
  | .unknownTag t => some t
  | .malformedText _ _ => none
  | .bufOverflow b => some b

/-- The field `info.pos` of the record, for cause 5 (10_state.md R14). -/
def Condition.infoPos : Condition → Option Nat
  | .malformedText p _ => some p
  | .unimplemented _ _ => none
  | .unknownTag _ => none
  | .bufOverflow _ => none

/-- The field `info.byte` of the record, for cause 5 (10_state.md R14). -/
def Condition.infoByte : Condition → Option Byte
  | .malformedText _ b => some b
  | .unimplemented _ _ => none
  | .unknownTag _ => none
  | .bufOverflow _ => none

/-- What the environment reads of `fault` at any time: its cause code, 0 when there is none (R14). -/
def State.faultCause (s : State) : BitVec 3 :=
  match s.fault with
  | none => 0
  | some c => c.cause

end Sys2Proof.Machine
end

