-- ==== Sys2Proof/Machine/Flags.lean ====
section
/-! DEFINITION. The escape flag, the block's only flag (10_state.md R12). -/

namespace Sys2Proof.Machine

/-- `esc <- 1` (40_decoder.md R51). -/
def State.setEsc (s : State) : State := { s with esc := true }

/-- `esc <- 0` (40_decoder.md R54: after every byte other than `ESC`). -/
def State.clearEsc (s : State) : State := { s with esc := false }

end Sys2Proof.Machine
end

