-- ==== Sys2Proof/Machine/Ops.lean ====
section
/-! DEFINITION. The named operations over the buffer and the streams, raising a condition, and the reset event. -/

namespace Sys2Proof.Machine

/-! ## RX (20_memory.md R21) -/

/-- `RxNext()` with `rxpos <- rxpos + 1`: takes the head byte of RX, if there is one (40_decoder.md R50). -/
def rxNext (s : State) : Option (Byte × State) :=
  match s.rx with
  | [] => none
  | b :: rest => some (b, { s with rx := rest, rxpos := s.rxpos + 1 })

/-- The environment delivers a chunk to RX, behind what already waits (70_reset_and_hazards.md R124). -/
def State.deliver (s : State) (chunk : List Byte) : State := { s with rx := s.rx ++ chunk }

/-- The environment signals end of stream or a transport error (60_exceptions.md R112); it delivers no byte
afterwards. -/
def State.endOfStream (s : State) : State := { s with rxEnded := true }

/-! ## The buffer (20_memory.md R22) -/

/-- `len(buf) == BUF_CAP`, never true when `BUF_CAP` is INF (40_decoder.md R53; log entry 20). -/
def State.bufFull (s : State) : Bool := s.cfg.bufCap == some s.buf.length

/-- `buf <- buf ++ [v]` (R53). -/
def State.appendBuf (s : State) (v : Byte) : State := { s with buf := s.buf ++ [v] }

/-- `buf <- []` (R52). -/
def State.clearBuf (s : State) : State := { s with buf := [] }

/-! ## The output streams (20_memory.md R23 to R25) -/

/-- `Append(HOST_OUT, p)`. -/
def State.appendHostOut (s : State) (p : List Byte) : State := { s with hostOut := s.hostOut ++ p }

/-- `Append(COND, c)`. -/
def State.appendCond (s : State) (c : Condition) : State := { s with cond := s.cond ++ [c] }

/-- `Append(DIAG, r)`. -/
def State.appendDiag (s : State) (r : DiagRecord) : State := { s with diag := s.diag ++ [r] }

/-! ## Conditions and reset (60_exceptions.md section 2, 70_reset_and_hazards.md section 1) -/

/-- `fault <- (code, info)` (R106). -/
def State.setFault (s : State) (c : Condition) : State := { s with fault := some c }

/-- `raise c`: the COND record first, for every condition (R105); then the fault record when the condition is
fatal (R106); a condition that is not fatal returns with `fault` as it was (R109). Nothing else is saved. -/
def raise (c : Condition) (s : State) : State :=
  if c.isFatal s.cfg then (s.appendCond c).setFault c else s.appendCond c

/-- The reset event, the one way out of a fault (R108, R120): the block's own state goes to its reset values; RX,
the output streams and the parameters are not touched. -/
def State.resetEvent (s : State) : State :=
  { s with buf := [], esc := false, rxpos := 0, fault := none }

end Sys2Proof.Machine
end

