-- ==== Sys2Proof/Machine/Utf8.lean ====
section
/-! DEFINITION. `utf8_check`, the text check of the debug handler (42_utf8_text.md R90 to R93). The table of R91 is
marked there "from general knowledge, not in source" (log entry 8). -/

namespace Sys2Proof.Machine

/-- What `utf8_check` returns (R90). -/
inductive Utf8Result where
  | ok
  | bad (pos : Nat)
  deriving DecidableEq, Repr

/-- A closed range of byte values. -/
structure ByteRange where
  lo : Byte
  hi : Byte
  deriving DecidableEq, Repr

def ByteRange.holds (r : ByteRange) (b : Byte) : Bool := Byte.inRange r.lo r.hi b

/-- A row of the table of R91: the range of byte 1 and the ranges of the further bytes. -/
structure Utf8Row where
  first : ByteRange
  further : List ByteRange
  deriving DecidableEq, Repr

/-- The range 0x80 to 0xBF of a continuation byte. -/
def contByte : ByteRange := { lo := 0x80#8, hi := 0xBF#8 }

/-- The nine rows of R91, in order. -/
def utf8Table : List Utf8Row := [
  { first := { lo := 0x00#8, hi := 0x7F#8 }, further := [] },
  { first := { lo := 0xC2#8, hi := 0xDF#8 }, further := [contByte] },
  { first := { lo := 0xE0#8, hi := 0xE0#8 }, further := [{ lo := 0xA0#8, hi := 0xBF#8 }, contByte] },
  { first := { lo := 0xE1#8, hi := 0xEC#8 }, further := [contByte, contByte] },
  { first := { lo := 0xED#8, hi := 0xED#8 }, further := [{ lo := 0x80#8, hi := 0x9F#8 }, contByte] },
  { first := { lo := 0xEE#8, hi := 0xEF#8 }, further := [contByte, contByte] },
  { first := { lo := 0xF0#8, hi := 0xF0#8 }, further := [{ lo := 0x90#8, hi := 0xBF#8 }, contByte, contByte] },
  { first := { lo := 0xF1#8, hi := 0xF3#8 }, further := [contByte, contByte, contByte] },
  { first := { lo := 0xF4#8, hi := 0xF4#8 }, further := [{ lo := 0x80#8, hi := 0x8F#8 }, contByte, contByte] } ]

/-- The row whose byte-1 range holds `b`, if there is one (R92). -/
def utf8RowOf (b : Byte) : Option Utf8Row := utf8Table.find? fun r => r.first.holds b

/-- The scan of R92, one byte at a time: `start` is the index of the first byte of the sequence the scan stands in,
`i` the index of the next byte, `need` the ranges of the bytes that sequence still lacks (none between two
sequences). A byte outside its range, a byte that begins no row, and the end inside a sequence all report
`start`. -/
def utf8Scan (start i : Nat) (need : List ByteRange) : List Byte → Utf8Result
  | [] => match need with
    | [] => .ok
    | _ :: _ => .bad start
  | b :: rest => match need with
    | [] => match utf8RowOf b with
      | none => .bad i
      | some row => utf8Scan i (i + 1) row.further rest
    | r :: more => if r.holds b then utf8Scan start (i + 1) more rest else .bad start

/-- `utf8_check(p)` (R90, R92). -/
def utf8Check (p : List Byte) : Utf8Result := utf8Scan 0 0 [] p

end Sys2Proof.Machine
end

