-- ==== Sys2Proof/Machine/TagHandlers.lean ====
section
/-! DEFINITION. The meanings of the TAG rows: the Dispatcher's handlers (41_dispatcher.md R74 to R79). They are fixed
parts of the block (R81). -/

namespace Sys2Proof.Machine

/-- `handle_debug(payload)` (R74, R75): the whole payload to HOST_OUT when it is UTF-8, else `MalformedText` with
the position and the byte there. `pos` is below the length (`execDebug_cases`), so the default is never taken (log entry 15). -/
def execDebug (payload : List Byte) (s : State) : Host.Outcome State Fault Refusal :=
  match utf8Check payload with
  | .ok => .next (s.appendHostOut payload)
  | .bad pos => .next (raise (.malformedText pos (payload.getD pos 0x00#8)) s)

/-- The unimplemented condition of a frame kind (R76 to R78): the payload is not examined. -/
def raiseUnimplemented (kind : FrameKind) (tag : Byte) (s : State) : Host.Outcome State Fault Refusal :=
  .next (raise (.unimplemented kind tag) s)

/-- `handle_coap` (R78). -/
def execCoap (_payload : List Byte) (s : State) : Host.Outcome State Fault Refusal :=
  raiseUnimplemented .coap 0xA9#8 s

/-- `handle_ipv4` for tag 0x45 (R76). -/
def execIpv4At45 (_payload : List Byte) (s : State) : Host.Outcome State Fault Refusal :=
  raiseUnimplemented .ipv4 0x45#8 s

/-- `handle_ipv4` for tags 0x46 and 0x47 (R76). -/
def execIpv4At46 (low : BitVec 1) (_payload : List Byte) (s : State) : Host.Outcome State Fault Refusal :=
  raiseUnimplemented .ipv4 (tagOf46 low) s

/-- `handle_ipv4` for tags 0x48 to 0x4F (R76). -/
def execIpv4At48 (low : BitVec 3) (_payload : List Byte) (s : State) : Host.Outcome State Fault Refusal :=
  raiseUnimplemented .ipv4 (tagOf48 low) s

/-- `handle_ipv6` (R77). -/
def execIpv6 (low : BitVec 4) (_payload : List Byte) (s : State) : Host.Outcome State Fault Refusal :=
  raiseUnimplemented .ipv6 (tagOf60 low) s

/-- `handle_unknown(tag)` (R79). -/
def execUnknown (tag : Byte) (_payload : List Byte) (s : State) : Host.Outcome State Fault Refusal :=
  .next (raise (.unknownTag tag) s)

end Sys2Proof.Machine
end

