-- ==== Sys2Proof/Machine/FrameDispatch.lean ====
section
/-! DEFINITION. The Dispatcher's operation `dispatch` (41_dispatcher.md R70 to R73). -/

namespace Sys2Proof.Machine

/-- `case class(tag)` (R73): the one handler of the tag's row. It is `exec` of the decoded instruction
(`route_eq_exec`). -/
def route (tag : Byte) (payload : List Byte) (s : State) : Host.Outcome State Fault Refusal :=
  match tagRow tag with
  | .debug => execDebug payload s
  | .coap => execCoap payload s
  | .ipv4At45 => execIpv4At45 payload s
  | .ipv4At46 => execIpv4At46 (lowOf46 tag) payload s
  | .ipv4At48 => execIpv4At48 (lowOf48 tag) payload s
  | .ipv6 => execIpv6 (lowOf60 tag) payload s
  | .unknown => execUnknown tag payload s

/-- `dispatch(f)` (R70): the DIAG record of every sequence first (R71), then the length check, which discards
lengths 0 and 1 (R72), then the handler of `f[0]` with `f[1:]` (R73). -/
def dispatch (f : List Byte) (s : State) : Host.Outcome State Fault Refusal :=
  match f with
  | [] => .next (s.appendDiag (.frameReceived f))
  | [_] => .next (s.appendDiag (.frameReceived f))
  | tag :: p :: ps => route tag (p :: ps) (s.appendDiag (.frameReceived f))

end Sys2Proof.Machine
end

