-- ==== Sys2Proof/Machine/Operands.lean ====
section
/-! DEFINITION. The operand forms: the substitution of a data byte (40_decoder.md R53, 30_encoding.md R37) and the
emitted sequence (00_scope.md section 5.1, 40_decoder.md R57). -/

namespace Sys2Proof.Machine

/-- The value a data byte contributes: `ESC_END` and `ESC_ESC` are substituted when the escape flag is set, every
other byte passes unchanged (R53; R44: tolerated, no error). -/
def unescape (esc : Bool) (b : Byte) : Byte :=
  if esc && b == wireESC_END then wireEND
  else if esc && b == wireESC_ESC then wireESC
  else b

/-- `strip0(s)`: `s` without its leading zero bytes (00_scope.md section 5.1). -/
def strip0 : List Byte → List Byte
  | [] => []
  | b :: t => if b = wirePAD then strip0 t else b :: t

end Sys2Proof.Machine
end

