-- ==== Sys2Proof/Machine/ByteFeed.lean ====
section
/-! DEFINITION. The meanings of the RXBYTE rows: the Decoder's `feed` by byte class (40_decoder.md R51 to R57). -/

namespace Sys2Proof.Machine

/-- `feed_ESC()` (R51). -/
def execEsc (s : State) : Host.Outcome State Fault Refusal := .next s.setEsc

/-- `feed_END()` (R52): the emitted sequence is a copy of the stripped buffer; `buf` and `esc` are cleared before
the dispatch, inside the same step. -/
def execFrameEnd (s : State) : Host.Outcome State Fault Refusal :=
  dispatch (strip0 s.buf) s.clearBuf.clearEsc

/-- `feed_DATA(b)` (R53): a full buffer raises `BufOverflow` of the byte as it was received and leaves `buf` and
`esc`; otherwise the possibly substituted byte is appended and `esc` cleared. -/
def feedData (b : Byte) (s : State) : Host.Outcome State Fault Refusal :=
  if s.bufFull then .next (raise (.bufOverflow b) s)
  else .next (s.appendBuf (unescape s.esc b)).clearEsc

/-- Row ESC_END: 0xC0 when the escape flag is set, else 0xDC (R53). -/
def execEscEnd (s : State) : Host.Outcome State Fault Refusal := feedData wireESC_END s

/-- Row ESC_ESC: 0xDB when the escape flag is set, else 0xDD (R53). -/
def execEscEsc (s : State) : Host.Outcome State Fault Refusal := feedData wireESC_ESC s

/-- Row PAD: a zero is appended like any data byte (R53 corner case c). -/
def execPad (s : State) : Host.Outcome State Fault Refusal := feedData wirePAD s

/-- Row DATA (R53). -/
def execData (b : Byte) (s : State) : Host.Outcome State Fault Refusal := feedData b s

end Sys2Proof.Machine
end

