-- ==== Sys2Proof/Machine/Dispatch.lean ====
section
/-! DEFINITION. `exec`: the meaning of each instruction, one arm for each row of opcode_table.json. -/

namespace Sys2Proof.Machine

-- The TAG arms are the handlers that `dispatch` runs inside the END step.
def exec (i : Instr) (s : State) : Host.Outcome State Fault Refusal :=
  match i with
  | .frameEnd => Sys2Proof.Machine.execFrameEnd s
  | .esc => Sys2Proof.Machine.execEsc s
  | .escEnd => Sys2Proof.Machine.execEscEnd s
  | .escEsc => Sys2Proof.Machine.execEscEsc s
  | .pad => Sys2Proof.Machine.execPad s
  | .data b => Sys2Proof.Machine.execData b s
  | .debug payload => Sys2Proof.Machine.execDebug payload s
  | .coap payload => Sys2Proof.Machine.execCoap payload s
  | .ipv4At45 payload => Sys2Proof.Machine.execIpv4At45 payload s
  | .ipv4At46 low payload => Sys2Proof.Machine.execIpv4At46 low payload s
  | .ipv4At48 low payload => Sys2Proof.Machine.execIpv4At48 low payload s
  | .ipv6 low payload => Sys2Proof.Machine.execIpv6 low payload s
  | .unknown tag payload => Sys2Proof.Machine.execUnknown tag payload s

end Sys2Proof.Machine
end

