-- ==== Sys2Proof/Machine/Feed.lean ====
section
/-! DEFINITION. `feed`, and where an instruction must stand so that the next step runs it. -/

namespace Sys2Proof.Machine

/-- `feed(b)` (40_decoder.md R50): the meaning of the byte's row. -/
def feed (b : Byte) (s : State) : Host.Outcome State Fault Refusal := exec (decodeByte b) s

/-- Puts an instruction where the next step runs it (log entry 7). An RXBYTE instruction is the next byte of RX. A
TAG instruction runs when the END of its frame is consumed: its sequence is the content of `buf` and the next
byte of RX is `END`. -/
def State.placeInstr (s : State) (i : Instr) : State :=
  match i.format with
  | .rxbyte => { s with rx := encode i ++ s.rx }
  | .tag => { s with buf := encode i, rx := wireEND :: s.rx }

end Sys2Proof.Machine
end

