-- ==== Sys2Proof/Machine/Step.lean ====
section
/-! DEFINITION. One step of the block (40_decoder.md R50, 60_exceptions.md R107, R112). -/

namespace Sys2Proof.Machine

/-- One step. With a fault record the block is halted and answers `halted` (R107; log entry 4). With no byte on RX
it is idle: nothing changes, and it is no fault (R112; log entry 3). Otherwise it consumes one byte and feeds it. -/
def step (s : State) : Host.Outcome State Fault Refusal :=
  match s.fault with
  | some c => .fault (.halted c)
  | none =>
    match rxNext s with
    | none => .next s
    | some (b, s') => feed b s'

/-- `s` with the instruction of a table word placed where the next step runs it. -/
def State.withFetchWord (s : State) (nbits w : Nat) : State :=
  match decodeTableWord nbits w with
  | none => s
  | some i => s.placeInstr i

end Sys2Proof.Machine
end

