-- ==== Sys2Proof/Machine/Run.lean ====
section
/-! DEFINITION. Runs of several steps, `process`, and the emitted sequences of a run (40_decoder.md R52, R55). -/

namespace Sys2Proof.Machine

/-- The state after one step if a step is enabled, and the same state if the block is halted (R107). -/
def advance (s : State) : State :=
  match step s with
  | .next t => t
  | .fault _ => s
  | .refused _ => s

/-- `n` steps. -/
def run : Nat → State → State
  | 0, s => s
  | n + 1, s => run n (advance s)

/-- `process(chunk)` in the stream model (R55): the environment delivers the chunk and the block takes
`len(chunk)` steps. A halted block leaves the rest of the chunk on RX. -/
def process (chunk : List Byte) (s : State) : State := run chunk.length (s.deliver chunk)

/-- A sequence of calls of `process`. -/
def processAll : List (List Byte) → State → State
  | [], s => s
  | c :: cs, s => processAll cs (process c s)

/-- The sequence the next step emits: the stripped buffer when the block runs and the next byte is `END`, and none
otherwise (R52: "the only place a Frame is produced"). -/
def emission (s : State) : Option (List Byte) :=
  match s.fault, s.rx with
  | none, b :: _ => if b = wireEND then some (Sys2Proof.Machine.strip0 s.buf) else none
  | none, [] => none
  | some _, _ => none

/-- The sequences emitted by the next `n` steps, in order. -/
def emissions : Nat → State → List (List Byte)
  | 0, _ => []
  | n + 1, s => (emission s).toList ++ emissions n (advance s)

/-- The sequences `process(chunk)` emits. -/
def emissionsOf (chunk : List Byte) (s : State) : List (List Byte) :=
  emissions chunk.length (s.deliver chunk)

/-- The sequences a sequence of calls of `process` emits. -/
def emissionsOfAll : List (List Byte) → State → List (List Byte)
  | [], _ => []
  | c :: cs, s => emissionsOf c s ++ emissionsOfAll cs (process c s)

end Sys2Proof.Machine
end

