-- ==== Sys2Proof/Safety.lean ====
section
/-! DEFINITION. Good and bad ends of a run, the UTF-8 table as a property of byte sequences, and the invariant of
the block. -/

namespace Sys2Proof.Machine

/-! ## Ends of a run (60_exceptions.md R112) -/

/-- The block can take a step (40_decoder.md R50, 70_reset_and_hazards.md R134). -/
def State.enabled (s : State) : Prop := s.fault = none ∧ s.rx ≠ []

/-- RX exhausted and no fault: the good end of a run. Without `rxEnded` the block is only idle. -/
def State.goodEnd (s : State) : Prop := s.rxEnded = true ∧ s.rx = [] ∧ s.fault = none

/-- A fault: the bad end of a run. -/
def State.badEnd (s : State) : Prop := s.fault ≠ none

/-! ## Conditions statements start from -/

/-- The block runs and waits for bytes: no fault, nothing on RX. -/
def State.waiting (s : State) : Prop := s.fault = none ∧ s.rx = []

/-- The block waits between two frames: the Decoder state is that after an END (10_state.md R15). -/
def State.betweenFrames (s : State) : Prop := s.waiting ∧ s.buf = [] ∧ s.esc = false

/-- The buffer has room for `n` more bytes; always so when `BUF_CAP` is INF. -/
def State.room (s : State) (n : Nat) : Prop := ∀ cap, s.cfg.bufCap = some cap → s.buf.length + n ≤ cap

/-! ## Well-formed text (42_utf8_text.md R91) -/

/-- `q` is one well-formed UTF-8 sequence: it matches one of the nine rows of R91, byte for byte. -/
def IsUtf8Sequence : List Byte → Prop
  | [a] => a ≤ 0x7F#8
  | [a, b] => (0xC2#8 ≤ a ∧ a ≤ 0xDF#8) ∧ (0x80#8 ≤ b ∧ b ≤ 0xBF#8)
  | [a, b, c] =>
    ((a = 0xE0#8 ∧ 0xA0#8 ≤ b ∧ b ≤ 0xBF#8) ∨ (0xE1#8 ≤ a ∧ a ≤ 0xEC#8 ∧ 0x80#8 ≤ b ∧ b ≤ 0xBF#8) ∨
      (a = 0xED#8 ∧ 0x80#8 ≤ b ∧ b ≤ 0x9F#8) ∨ (0xEE#8 ≤ a ∧ a ≤ 0xEF#8 ∧ 0x80#8 ≤ b ∧ b ≤ 0xBF#8)) ∧
    (0x80#8 ≤ c ∧ c ≤ 0xBF#8)
  | [a, b, c, d] =>
    ((a = 0xF0#8 ∧ 0x90#8 ≤ b ∧ b ≤ 0xBF#8) ∨ (0xF1#8 ≤ a ∧ a ≤ 0xF3#8 ∧ 0x80#8 ≤ b ∧ b ≤ 0xBF#8) ∨
      (a = 0xF4#8 ∧ 0x80#8 ≤ b ∧ b ≤ 0x8F#8)) ∧
    (0x80#8 ≤ c ∧ c ≤ 0xBF#8) ∧ (0x80#8 ≤ d ∧ d ≤ 0xBF#8)
  | _ => False

/-- `p` is a concatenation of well-formed UTF-8 sequences (R90). -/
def IsUtf8Text (p : List Byte) : Prop :=
  ∃ seqs : List (List Byte), p = seqs.flatten ∧ ∀ q ∈ seqs, IsUtf8Sequence q

/-! ## The invariant -/

/-- The information of a condition fits its cause (60_exceptions.md R101): a tag lies in the class the cause names,
the tag 0x00 never arrives (30_encoding.md R43), a malformed text is reported at a byte that is not ASCII, and the
byte that overflowed a buffer is a data byte (R110). -/
def Condition.fitsCause : Condition → Prop
  | .unimplemented .ipv4 t => tagClass t = .ipv4
  | .unimplemented .ipv6 t => tagClass t = .ipv6
  | .unimplemented .coap t => tagClass t = .coap
  | .unknownTag t => tagClass t = .unknown ∧ t ≠ 0x00#8
  | .malformedText _ b => 0x80#8 ≤ b
  | .bufOverflow b => byteClass b = .data

/-- What a fault record says of the buffer and the flag (60_exceptions.md R106): a Dispatcher condition leaves them
cleared, an overflow leaves a full buffer. -/
def Condition.leaves (c : Condition) (s : State) : Prop :=
  match c with
  | .unimplemented _ _ => s.buf = [] ∧ s.esc = false
  | .unknownTag _ => s.buf = [] ∧ s.esc = false
  | .malformedText _ _ => s.buf = [] ∧ s.esc = false
  | .bufOverflow _ => s.cfg.bufCap = some s.buf.length

/-- The invariant every step keeps. -/
structure State.Inv (s : State) : Prop where
  /-- `len(buf) <= BUF_CAP` (10_state.md R11). -/
  bufferFits : ∀ n, s.cfg.bufCap = some n → s.buf.length ≤ n
  /-- Every COND record is one R101 allows. -/
  condsFit : ∀ c ∈ s.cond, c.fitsCause
  /-- The fault record is the last COND record, and fatal (R105, R106). -/
  faultReported : ∀ c, s.fault = some c → s.cond.getLast? = some c ∧ c.isFatal s.cfg = true
  /-- What the fatal step left (R106). -/
  faultLeaves : ∀ c, s.fault = some c → c.leaves s
  /-- HOST_OUT is well-formed UTF-8 text (41_dispatcher.md R74). -/
  textOut : IsUtf8Text s.hostOut

end Sys2Proof.Machine
end

