-- ==== Sys2Proof/Certificates/Slice0/Obligations.lean ====
section
/-! DEFINITION. The statements about the block, for the provers. A statement whose docstring says "the spec's own
decision D<n>" rests on a choice the spec marks as its own in 92_eei_decisions.md. -/

open Sys2Proof Sys2Proof.Machine

/-! ## The Decoder's rows -/

/-- 40_decoder.md R51: `ESC` sets the flag and does nothing else, in every state, with `buf` full or not. -/
def Obligations.EscSetsOnlyTheFlag : Prop :=
  ∀ s : State, exec .esc s = .next { s with esc := true }

/-- 40_decoder.md section 3, the appending rows of the transition table: with a buffer that is not full each data row
appends exactly one byte, substituted only for `ESC_END` and `ESC_ESC` under the flag, clears the flag, and touches
nothing else. -/
def Obligations.DataRowsAppendOneByte : Prop :=
  ∀ s : State, s.cfg.bufCap ≠ some s.buf.length →
    exec .escEnd s = .next { s with buf := s.buf ++ [if s.esc then 0xC0#8 else 0xDC#8], esc := false } ∧
    exec .escEsc s = .next { s with buf := s.buf ++ [if s.esc then 0xDB#8 else 0xDD#8], esc := false } ∧
    exec .pad s = .next { s with buf := s.buf ++ [0x00#8], esc := false } ∧
    ∀ b, (Instr.data b).wellFormed = true →
      exec (.data b) s = .next { s with buf := s.buf ++ [b], esc := false }

/-- 60_exceptions.md R110 (the spec's own decision D3): a data row that meets a full buffer raises the fatal overflow
of the byte as received; `buf` and `esc` keep their values. -/
def Obligations.FullBufferOverflowsWithoutAppending : Prop :=
  ∀ s : State, s.cfg.bufCap = some s.buf.length →
    exec .escEnd s = .next { s with cond := s.cond ++ [.bufOverflow 0xDC#8], fault := some (.bufOverflow 0xDC#8) } ∧
    exec .escEsc s = .next { s with cond := s.cond ++ [.bufOverflow 0xDD#8], fault := some (.bufOverflow 0xDD#8) } ∧
    exec .pad s = .next { s with cond := s.cond ++ [.bufOverflow 0x00#8], fault := some (.bufOverflow 0x00#8) } ∧
    ∀ b, (Instr.data b).wellFormed = true →
      exec (.data b) s = .next { s with cond := s.cond ++ [.bufOverflow b], fault := some (.bufOverflow b) }

/-- 40_decoder.md R57: `END` hands to the Dispatcher the buffer without its leading zeros, all of them and nothing else.
That `buf` and `esc` are already cleared when the dispatch runs is the order of R52's pseudocode (the spec's own decision
D10, log entry 5). -/
def Obligations.EndDispatchesTheStrippedBuffer : Prop :=
  ∀ s : State, ∃ n f, s.buf = List.replicate n 0x00#8 ++ f ∧ (∀ t, f ≠ 0x00#8 :: t) ∧
    exec .frameEnd s = dispatch f { s with buf := [], esc := false }

/-- 10_state.md R15: after every `END` step, whatever the frame and whatever the state before, `buf = []` and
`esc = 0`. With it the frame of `END`: RX, the position and the parameters are not written. -/
def Obligations.EndAlwaysCompletesAndClears : Prop :=
  ∀ s : State, ∃ t, exec .frameEnd s = .next t ∧ t.buf = [] ∧ t.esc = false ∧
    t.cfg = s.cfg ∧ t.rx = s.rx ∧ t.rxEnded = s.rxEnded ∧ t.rxpos = s.rxpos

/-- 30_encoding.md R37, its six rows, from a block that waits with the flag clear and room for a byte. The rows `ESC ESC`
and `ESC END` are the spec's own reading (its own decision D16, log entry 16). -/
def Obligations.EscapeSequencesUnstuff : Prop :=
  ∀ s : State, s.waiting → s.esc = false → s.room 1 →
    ((process [0xDB#8, 0xDC#8] s).buf = s.buf ++ [0xC0#8] ∧ (process [0xDB#8, 0xDC#8] s).esc = false) ∧
    ((process [0xDB#8, 0xDD#8] s).buf = s.buf ++ [0xDB#8] ∧ (process [0xDB#8, 0xDD#8] s).esc = false) ∧
    (∀ v, byteClass v = .data → v ≠ 0xDC#8 → v ≠ 0xDD#8 →
      (process [0xDB#8, v] s).buf = s.buf ++ [v] ∧ (process [0xDB#8, v] s).esc = false) ∧
    ((process [0xDB#8, 0xDB#8] s).buf = s.buf ∧ (process [0xDB#8, 0xDB#8] s).esc = true) ∧
    (emissionsOf [0xDB#8, 0xC0#8] s = [strip0 s.buf] ∧
      (process [0xDB#8, 0xC0#8] s).buf = [] ∧ (process [0xDB#8, 0xC0#8] s).esc = false) ∧
    (∀ v, byteClass v = .data → (process [v] s).buf = s.buf ++ [v] ∧ (process [v] s).esc = false)

/-- 40_decoder.md R63: an escape reaches one byte. After `ESC` and any byte that is not `ESC`, data byte or `END`, a data
byte `w` is appended as it was received (derived there from R54); the source's example is the last clause. -/
def Obligations.EscapeReachesOneByteOnly : Prop :=
  (∀ (s : State) (v w : Byte), s.waiting → s.room 2 → byteClass v = .data → byteClass w = .data →
    (process [0xDB#8, v, w] s).buf = (process [0xDB#8, v] s).buf ++ [w] ∧ (process [0xDB#8, v, w] s).esc = false) ∧
  (∀ (s : State) (w : Byte), s.waiting → s.room 2 → byteClass w = .data → (process [0xDB#8, 0xC0#8] s).fault = none →
    (process [0xDB#8, 0xC0#8, w] s).buf = [w]) ∧
  (∀ s : State, s.betweenFrames → s.room 2 →
    emissionsOf [0xDB#8, 0xDC#8, 0x01#8, 0xC0#8] s = [[0xC0#8, 0x01#8]])

/-- 40_decoder.md R51 corner case a (the spec's own decision D16): a run of `ESC` bytes equals one. -/
def Obligations.RepeatedEscEqualsOneEsc : Prop :=
  ∀ (n : Nat) (s : State), s.waiting →
    process (List.replicate (n + 1) 0xDB#8) s = { s with esc := true, rxpos := s.rxpos + (n + 1) }

/-! ## Classes and encodings -/

/-- 30_encoding.md R36: every byte lies in exactly one of three classes, by its value, and the row the decoder picks
follows the class. -/
def Obligations.ByteRowsFollowTheClasses : Prop :=
  ∀ b : Byte, (b = 0xDB#8 → decodeByte b = .esc) ∧ (b = 0xC0#8 → decodeByte b = .frameEnd) ∧
    (b ≠ 0xDB#8 → b ≠ 0xC0#8 →
      (b = 0xDC#8 ∧ decodeByte b = .escEnd) ∨ (b = 0xDD#8 ∧ decodeByte b = .escEsc) ∨
      (b = 0x00#8 ∧ decodeByte b = .pad) ∨ (b ≠ 0xDC#8 ∧ b ≠ 0xDD#8 ∧ b ≠ 0x00#8 ∧ decodeByte b = .data b))

/-- 30_encoding.md R42: the class of a tag, both ends of each range inside it, decides the row; the free bits of a row
give the tag back; the payload plays no part. -/
def Obligations.TagRowsFollowTheClasses : Prop :=
  ∀ (t : Byte) (p : List Byte),
    (0x45#8 ≤ t ∧ t ≤ 0x4F#8 → (t = 0x45#8 ∧ decodeTag t p = .ipv4At45 p) ∨
      (∃ low, tagOf46 low = t ∧ decodeTag t p = .ipv4At46 low p) ∨
      (∃ low, tagOf48 low = t ∧ decodeTag t p = .ipv4At48 low p)) ∧
    (0x60#8 ≤ t ∧ t ≤ 0x6F#8 → ∃ low, tagOf60 low = t ∧ decodeTag t p = .ipv6 low p) ∧
    (t = 0x0A#8 → decodeTag t p = .debug p) ∧ (t = 0xA9#8 → decodeTag t p = .coap p) ∧
    (¬ (0x45#8 ≤ t ∧ t ≤ 0x4F#8) → ¬ (0x60#8 ≤ t ∧ t ≤ 0x6F#8) → t ≠ 0x0A#8 → t ≠ 0xA9#8 →
      decodeTag t p = .unknown t p)

/-- Words written out from opcode_table.json and R41 decode to the rows they stand for. -/
def Obligations.WrittenWordsDecode : Prop :=
  decodeByte 0b11000000#8 = .frameEnd ∧ decodeByte 0b11011011#8 = .esc ∧ decodeByte 0b11011100#8 = .escEnd ∧
  decodeByte 0b01000001#8 = .data 0x41#8 ∧ decodeTag 0b00001010#8 [0x68#8] = .debug [0x68#8] ∧
  decodeTag 0b01000111#8 [0x00#8] = .ipv4At46 1#1 [0x00#8] ∧ decodeTag 0b01101111#8 [0x00#8] = .ipv6 15#4 [0x00#8] ∧
  decodeTag 0b01000100#8 [0x00#8] = .unknown 0x44#8 [0x00#8]

/-- Every well-formed instruction, every operand at every value, decodes from its own bytes; an RXBYTE instruction
leaves the rest of RX. -/
def Obligations.DecodeOfEncodeIsTheInstruction : Prop :=
  ∀ i : Instr, i.wellFormed = true →
    (i.format = .rxbyte → ∀ rest, decode .rxbyte (encode i ++ rest) = .ok (i, rest)) ∧
    (i.format = .tag → decode .tag (encode i) = .ok (i, []))

/-- What the decoder reads is well-formed, of the format asked for, and encodes to the bytes it was read from; only the
empty RX and sequences of length 0 and 1 hold no instruction (30_encoding.md R38, R44). -/
def Obligations.EncodeOfDecodeIsTheBytes : Prop :=
  ∀ (fmt : Format) (bytes : List Byte),
    (∀ i rest, decode fmt bytes = .ok (i, rest) →
      encode i ++ rest = bytes ∧ i.wellFormed = true ∧ i.format = fmt) ∧
    ((∃ e, decode fmt bytes = .error e) ↔
      (fmt = .rxbyte ∧ bytes.length = 0) ∨ (fmt = .tag ∧ bytes.length ≤ 1))

/-- 30_encoding.md R45, R46 (derived there): a stuffed image holds no `END` and has between `n` and `2n` bytes. -/
def Obligations.StuffedBytesHoldNoEnd : Prop :=
  ∀ f : List Byte, 0xC0#8 ∉ stuff f ∧ f.length ≤ (stuff f).length ∧ (stuff f).length ≤ 2 * f.length

/-! ## The Dispatcher -/

/-- 41_dispatcher.md R72: a sequence of length 0 or 1 is discarded, whatever its byte: nothing reaches HOST_OUT or
COND and no condition is raised. -/
def Obligations.ShortSequencesAreDiscarded : Prop :=
  ∀ (f : List Byte) (s : State), f.length ≤ 1 → ∃ t, dispatch f s = .next t ∧
    t.hostOut = s.hostOut ∧ t.cond = s.cond ∧ t.fault = s.fault ∧ t.buf = s.buf ∧ t.esc = s.esc ∧
    t.rx = s.rx ∧ t.rxEnded = s.rxEnded ∧ t.rxpos = s.rxpos ∧ t.cfg = s.cfg

/-- 41_dispatcher.md R73: an actionable frame is the instruction of its first byte with the rest as payload; what the
dispatch has added to DIAG by then is left open. -/
def Obligations.ActionableFrameRunsItsHandler : Prop :=
  ∀ (tag : Byte) (payload : List Byte) (s : State), payload ≠ [] →
    ∃ d, dispatch (tag :: payload) s = exec (decodeTag tag payload) { s with diag := d }

/-- 41_dispatcher.md R74, R75 (the spec's own decisions D9, D17): a payload that is UTF-8 text goes to HOST_OUT byte for
byte, and nothing else changes. -/
def Obligations.DebugWritesTextVerbatim : Prop :=
  ∀ (p : List Byte) (s : State), IsUtf8Text p →
    exec (.debug p) s = .next { s with hostOut := s.hostOut ++ p }

/-- 41_dispatcher.md R74, 42_utf8_text.md R93, 60_exceptions.md R104 (the spec's own decisions D7, D8): any other payload
raises the fatal malformed-text condition at the first byte of its first ill-formed sequence; no byte of it is
written. -/
def Obligations.DebugReportsMalformedText : Prop :=
  ∀ (p : List Byte) (s : State), ¬ IsUtf8Text p → ∃ text v rest, p = text ++ v :: rest ∧ IsUtf8Text text ∧
    (∀ n, ¬ IsUtf8Sequence ((v :: rest).take n)) ∧
    exec (.debug p) s = .next { s with
      cond := s.cond ++ [.malformedText text.length v], fault := some (.malformedText text.length v) }

/-- 41_dispatcher.md R76: each of the three IPV4 rows reports its own tag on COND, sets `fault` when `UNIMPL_FATAL` is
true, and touches nothing else. -/
def Obligations.Ipv4RowsRaiseUnimplemented : Prop :=
  ∀ (p : List Byte) (s : State),
    exec (.ipv4At45 p) s = .next { s with
      cond := s.cond ++ [.unimplemented .ipv4 0x45#8],
      fault := if s.cfg.unimplFatal then some (.unimplemented .ipv4 0x45#8) else s.fault } ∧
    (∀ low : BitVec 1, exec (.ipv4At46 low p) s = .next { s with
      cond := s.cond ++ [.unimplemented .ipv4 (0x23#7 ++ low)],
      fault := if s.cfg.unimplFatal then some (.unimplemented .ipv4 (0x23#7 ++ low)) else s.fault }) ∧
    ∀ low : BitVec 3, exec (.ipv4At48 low p) s = .next { s with
      cond := s.cond ++ [.unimplemented .ipv4 (0x09#5 ++ low)],
      fault := if s.cfg.unimplFatal then some (.unimplemented .ipv4 (0x09#5 ++ low)) else s.fault }

/-- 41_dispatcher.md R77. -/
def Obligations.Ipv6RowRaisesUnimplemented : Prop :=
  ∀ (low : BitVec 4) (p : List Byte) (s : State), exec (.ipv6 low p) s = .next { s with
    cond := s.cond ++ [.unimplemented .ipv6 (0x6#4 ++ low)],
    fault := if s.cfg.unimplFatal then some (.unimplemented .ipv6 (0x6#4 ++ low)) else s.fault }

/-- 41_dispatcher.md R78. -/
def Obligations.CoapRowRaisesUnimplemented : Prop :=
  ∀ (p : List Byte) (s : State), exec (.coap p) s = .next { s with
    cond := s.cond ++ [.unimplemented .coap 0xA9#8],
    fault := if s.cfg.unimplFatal then some (.unimplemented .coap 0xA9#8) else s.fault }

/-- 41_dispatcher.md R79: always fatal, whatever `UNIMPL_FATAL` is. -/
def Obligations.UnknownRowRaisesUnknownTag : Prop :=
  ∀ (tag : Byte) (p : List Byte) (s : State), exec (.unknown tag p) s = .next { s with
    cond := s.cond ++ [.unknownTag tag], fault := some (.unknownTag tag) }

/-- The outcome table of 41_dispatcher.md section 4, of the whole step that consumes the `END` of an actionable frame
(the spec's own decisions D4, D7, D12 in the report and the halt). -/
def Obligations.EndStepFollowsTheOutcomeTable : Prop :=
  ∀ (s : State) (rest : List Byte) (tag : Byte) (p : List Byte),
    s.fault = none → s.rx = 0xC0#8 :: rest → strip0 s.buf = tag :: p → p ≠ [] →
    ∃ t, step s = .next t ∧ t.buf = [] ∧ t.esc = false ∧ t.rx = rest ∧ t.rxpos = s.rxpos + 1 ∧
      (tag = 0x0A#8 → IsUtf8Text p → t.hostOut = s.hostOut ++ p ∧ t.cond = s.cond ∧ t.fault = none) ∧
      (tag = 0x0A#8 → ¬ IsUtf8Text p → t.hostOut = s.hostOut ∧ ∃ pos v, p[pos]? = some v ∧
        t.cond = s.cond ++ [.malformedText pos v] ∧ t.fault = some (.malformedText pos v)) ∧
      (0x45#8 ≤ tag → tag ≤ 0x4F#8 → t.hostOut = s.hostOut ∧ t.cond = s.cond ++ [.unimplemented .ipv4 tag] ∧
        t.fault = if s.cfg.unimplFatal then some (.unimplemented .ipv4 tag) else none) ∧
      (0x60#8 ≤ tag → tag ≤ 0x6F#8 → t.hostOut = s.hostOut ∧ t.cond = s.cond ++ [.unimplemented .ipv6 tag] ∧
        t.fault = if s.cfg.unimplFatal then some (.unimplemented .ipv6 tag) else none) ∧
      (tag = 0xA9#8 → t.hostOut = s.hostOut ∧ t.cond = s.cond ++ [.unimplemented .coap tag] ∧
        t.fault = if s.cfg.unimplFatal then some (.unimplemented .coap tag) else none) ∧
      (tagClass tag = .unknown → t.hostOut = s.hostOut ∧ t.cond = s.cond ++ [.unknownTag tag] ∧
        t.fault = some (.unknownTag tag))

/-! ## The text check -/

/-- 42_utf8_text.md R90, R91 (the spec's own decision D9; the table is from general knowledge, G3): the scan answers
`ok` exactly on concatenations of well-formed sequences. -/
def Obligations.Utf8CheckAcceptsExactlyText : Prop :=
  ∀ p : List Byte, utf8Check p = .ok ↔ IsUtf8Text p

/-- 42_utf8_text.md R92, R93 (the spec's own decision D8): the position reported is inside the payload, everything
before it is text, and no well-formed sequence begins there; and that determines it. -/
def Obligations.Utf8CheckReportsTheFirstIllFormedSequence : Prop :=
  ∀ (p : List Byte) (pos : Nat), utf8Check p = .bad pos ↔
    pos < p.length ∧ IsUtf8Text (p.take pos) ∧ ∀ n, ¬ IsUtf8Sequence ((p.drop pos).take n)

/-- 41_dispatcher.md R74 corner cases b and c: pure ASCII always passes, and a byte 0xC0 always fails. -/
def Obligations.AsciiPassesAndByteC0Fails : Prop :=
  (∀ p : List Byte, (∀ b ∈ p, b < 0x80#8) → utf8Check p = .ok) ∧
  (∀ p : List Byte, 0xC0#8 ∈ p → ∃ pos, utf8Check p = .bad pos)

/-! ## The step -/

/-- 40_decoder.md R50: a step of a block without fault takes the head byte of RX, adds 1 to the position, and is the
meaning of the decoded, well-formed instruction. -/
def Obligations.StepRunsTheDecodedInstruction : Prop :=
  ∀ (s : State) (b : Byte) (rest : List Byte), s.fault = none → s.rx = b :: rest →
    (decodeByte b).wellFormed = true ∧
    step s = exec (decodeByte b) { s with rx := rest, rxpos := s.rxpos + 1 }

/-- 70_reset_and_hazards.md R134: if `fault == none` and RX has a byte, the block can take a step and it finishes. With
it, it consumes exactly that byte, once (20_memory.md R21), and no step writes a parameter. -/
def Obligations.EnabledStepFinishes : Prop :=
  ∀ s : State, s.enabled → ∃ t, step s = .next t ∧ t.rx = s.rx.tail ∧ t.rxpos = s.rxpos + 1 ∧
    t.rxEnded = s.rxEnded ∧ t.cfg = s.cfg

/-- 60_exceptions.md R112 (the spec's own decision D13; the step that changes nothing is the model's, log entry 3): with
no byte on RX, ended or not, a block without fault keeps its state, a partial frame included. -/
def Obligations.IdleBlockKeepsItsState : Prop :=
  ∀ s : State, s.waiting → step s = .next s ∧ emission s = none

/-- 60_exceptions.md R107 (the spec's own decision D4; the outcome `halted` is the model's, log entry 4): a block with a
fault takes no step, and however many bytes arrive it consumes none and emits nothing. -/
def Obligations.HaltedBlockIgnoresTheStream : Prop :=
  ∀ (s : State) (c : Condition) (chunk : List Byte), s.fault = some c →
    step s = .fault (.halted c) ∧ process chunk s = s.deliver chunk ∧ emissionsOf chunk s = []

/-- 10_state.md R11: a data step appends exactly one byte (or overflows and leaves the buffer), an `END` step clears
it, any other step leaves it; the length stays within `BUF_CAP`. -/
def Obligations.BufferChangesInTwoWaysOnly : Prop :=
  ∀ s t : State, step s = .next t →
    (t.buf = s.buf ∨ (∃ b v, s.rx.head? = some b ∧ byteClass b = .data ∧ t.buf = s.buf ++ [v]) ∨
      (s.rx.head? = some 0xC0#8 ∧ t.buf = [])) ∧
    ∀ cap, s.cfg.bufCap = some cap → s.buf.length ≤ cap → t.buf.length ≤ cap

/-- 10_state.md R12: the flag is 1 after `ESC` and 0 after any other byte, but for the overflow step, which leaves it; and
only a data step reads it. -/
def Obligations.EscFlagTellsTheLastByte : Prop :=
  ∀ (s t : State) (b : Byte) (rest : List Byte), s.rx = b :: rest → step s = .next t →
    (b = 0xDB#8 → t.esc = true) ∧
    (b ≠ 0xDB#8 → (∀ v, t.fault ≠ some (.bufOverflow v)) → t.esc = false) ∧
    (∀ v, t.fault = some (.bufOverflow v) → t.esc = s.esc) ∧
    (byteClass b ≠ .data → ∀ e, step { s with esc := e } = .next t)

/-- 60_exceptions.md R115 (derived there) with R105, R106 (the spec's own decisions D4, D12): one step raises at most one
condition; a raised one is reported on COND, writes nothing to HOST_OUT, and sets `fault` exactly when it is fatal. -/
def Obligations.StepRaisesAtMostOneCondition : Prop :=
  ∀ s t : State, step s = .next t →
    (t.cond = s.cond ∧ t.fault = none) ∨
    ∃ c, t.cond = s.cond ++ [c] ∧ t.hostOut = s.hostOut ∧
      t.fault = if c.isFatal s.cfg then some c else none

/-- 20_memory.md R23: HOST_OUT is append-only and its only writer is the debug handler, which appends the whole payload
of one frame. That the payload is UTF-8 text and that such a step raises nothing is 41_dispatcher.md R74 with the spec's
own decisions D7 (log entry 17) and D9 (log entry 8, PRESUMED). -/
def Obligations.OnlyDebugFramesWriteHostOut : Prop :=
  ∀ s t : State, step s = .next t → t.hostOut = s.hostOut ∨
    ∃ p, p ≠ [] ∧ s.rx.head? = some 0xC0#8 ∧ strip0 s.buf = 0x0A#8 :: p ∧ IsUtf8Text p ∧
      t.hostOut = s.hostOut ++ p ∧ t.cond = s.cond ∧ t.fault = none

/-- 20_memory.md R32: nothing the block writes is read back. Whatever the three output streams hold, the step does the
same to everything else and appends the same to HOST_OUT and COND. -/
def Obligations.OutputStreamsAreNeverReadBack : Prop :=
  ∀ (s t : State) (h : List Byte) (c : List Condition) (d : List DiagRecord), step s = .next t →
    ∃ t' p q, step { s with hostOut := h, cond := c, diag := d } = .next t' ∧
      t'.cfg = t.cfg ∧ t'.rx = t.rx ∧ t'.rxEnded = t.rxEnded ∧ t'.rxpos = t.rxpos ∧ t'.buf = t.buf ∧
      t'.esc = t.esc ∧ t'.fault = t.fault ∧
      t.hostOut = s.hostOut ++ p ∧ t'.hostOut = h ++ p ∧ t.cond = s.cond ++ q ∧ t'.cond = c ++ q

/-- The host interface of the model (log entries 6, 7): from any state without fault, the next step after placing a
table byte runs the instruction of that byte; a TAG instruction runs inside the END of its frame. -/
def Obligations.PlacedTableWordRunsNext : Prop :=
  ∀ (s : State) (w : Nat), s.fault = none → w < 256 → ∃ i, decodeTableWord 8 w = some i ∧ i.wellFormed = true ∧
    (i.format = .rxbyte → step (s.withFetchWord 8 w) = exec i { s with rxpos := s.rxpos + 1 }) ∧
    (i.format = .tag → ∃ d, step (s.withFetchWord 8 w) =
      exec i { s with buf := [], esc := false, rxpos := s.rxpos + 1, diag := d })

/-! ## Reset and the invariant -/

/-- 10_state.md R17, 70_reset_and_hazards.md R120 (the spec's own decision D2; a run that starts with empty streams is
log entry 14): the values after reset, that the reset event touches no stream and no parameter, and that it ends a
halt. -/
def Obligations.ResetLeavesTheStatedValues : Prop :=
  (State.reset.buf = [] ∧ State.reset.esc = false ∧ State.reset.rxpos = 0 ∧ State.reset.fault = none ∧
    State.reset.cfg.bufCap = none ∧ State.reset.cfg.unimplFatal = true) ∧
  ∀ s : State, s.resetEvent = { s with buf := [], esc := false, rxpos := 0, fault := none } ∧
    (s.rx ≠ [] → s.resetEvent.enabled)

/-- The invariant holds at reset, under every value of the parameters. -/
def Obligations.InvariantHoldsAtReset : Prop :=
  State.reset.Inv ∧ ∀ cfg, (State.resetWith cfg).Inv

/-- The invariant of Safety.lean is inductive: the buffer fits its capacity (10_state.md R11), every COND record is one
60_exceptions.md R101 allows, a fault is the last condition reported and fatal, its step left the state R106 says, and
HOST_OUT is UTF-8 text. -/
def Obligations.EveryStepKeepsTheInvariant : Prop :=
  ∀ s t : State, s.Inv → step s = .next t → t.Inv

/-- What the environment does keeps it too: delivery, end of stream, reset. -/
def Obligations.EnvironmentKeepsTheInvariant : Prop :=
  ∀ s : State, s.Inv → (∀ chunk, (s.deliver chunk).Inv) ∧ s.endOfStream.Inv ∧ s.resetEvent.Inv

/-! ## Laws of runs -/

/-- 40_decoder.md R55: `process` is the fold of `feed`; `process([])` does nothing; two chunks in a row are one; after a
fatal `feed` the rest of the chunk stays on RX. -/
def Obligations.ProcessFoldsFeed : Prop :=
  ∀ s : State, process [] s = s ∧ (∀ a b, process (a ++ b) s = process b (process a s)) ∧
    (s.waiting → ∀ b bs, ∃ t, feed b { s with rxpos := s.rxpos + 1 } = .next t ∧
      process (b :: bs) s = process bs t ∧ (t.fault ≠ none → process (b :: bs) s = { t with rx := bs }))

/-- 40_decoder.md R61: however the input is cut into chunks, from any state, the final state and the emitted sequences
are those of the uncut input. The source says it of the emissions; the form with the final state is derived there from
R55. -/
def Obligations.ChunkSplitsAreInvisible : Prop :=
  ∀ (chunks : List (List Byte)) (s : State),
    processAll chunks s = process chunks.flatten s ∧ emissionsOfAll chunks s = emissionsOf chunks.flatten s

/-- 40_decoder.md R62 (derived there): the round trip. From a block that has received only padding, the stuffed image of
any `F` and an `END` cause exactly one emission, `strip0(F)`, and leave the state its dispatch leaves. -/
def Obligations.StuffedFrameRoundTrip : Prop :=
  ∀ (s : State) (z : Nat) (f : List Byte), s.waiting → s.esc = false → s.buf = List.replicate z 0x00#8 →
    s.room f.length → emissionsOf (frameBytes f) s = [strip0 f] ∧
      dispatch (strip0 f) { s with buf := [], esc := false, rxpos := s.rxpos + (frameBytes f).length } =
        .next (process (frameBytes f) s)

/-- The block at work: between two frames, the wire image of a debug frame prints its text and leaves the block between
two frames again, with nothing on COND (40_decoder.md R62, derived there, with 41_dispatcher.md R74). Which payloads
count as text is the spec's own decision D9 (log entry 8, PRESUMED). -/
def Obligations.DebugFrameIsPrintedAndNothingElse : Prop :=
  ∀ (s : State) (p : List Byte), s.betweenFrames → s.room (p.length + 1) → p ≠ [] → IsUtf8Text p →
    let t := process (frameBytes (0x0A#8 :: p)) s
    t.betweenFrames ∧ t.hostOut = s.hostOut ++ p ∧ t.cond = s.cond ∧
      t.rxpos = s.rxpos + (frameBytes (0x0A#8 :: p)).length

/-- 20_memory.md R31, 70_reset_and_hazards.md R128: bytes before the `END` reach nobody, and with an unbounded buffer
nothing at all leaves the block. -/
def Obligations.NothingLeavesBeforeTheEnd : Prop :=
  ∀ (s : State) (chunk : List Byte), s.waiting → 0xC0#8 ∉ chunk →
    (process chunk s).hostOut = s.hostOut ∧ emissionsOf chunk s = [] ∧
    (s.cfg.bufCap = none → (process chunk s).cond = s.cond ∧ (process chunk s).fault = none)

/-- 10_state.md, consequence I-3 (derived there): while no fault arises the buffer grows by one for each byte that is
neither `ESC` nor `END`. -/
def Obligations.BufferCountsTheDataBytes : Prop :=
  ∀ (s : State) (chunk : List Byte), s.waiting → 0xC0#8 ∉ chunk → (process chunk s).fault = none →
    (process chunk s).buf.length = s.buf.length + (chunk.filter (· != 0xDB#8)).length

/-- 70_reset_and_hazards.md R131, 40_decoder.md R52 corner case a: between two frames one more `END` emits the empty
sequence and changes neither HOST_OUT nor COND. -/
def Obligations.DoubledEndIsHarmless : Prop :=
  ∀ s : State, s.betweenFrames → emissionsOf [0xC0#8] s = [[]] ∧ (process [0xC0#8] s).betweenFrames ∧
    (process [0xC0#8] s).hostOut = s.hostOut ∧ (process [0xC0#8] s).cond = s.cond

/-- 40_decoder.md, the note after R57 (derived there): not appending a zero to an empty buffer gives the stripped
sequence, byte by byte. -/
def Obligations.StripCanBeDoneOnTheFly : Prop :=
  ∀ bytes : List Byte, strip0 bytes =
    bytes.foldl (fun kept v => if kept = [] ∧ v = 0x00#8 then kept else kept ++ [v]) []
end

