-- ==== Sys2Proof/Laws/Decode.lean ====
section
/-! SUPPORT. The class tables: what the first matching row is, in the terms of the prose, and that the free bits of a
tag are kept. -/

namespace Sys2Proof

/-- A property of a byte can be checked nibble by nibble. -/
theorem forall_byte {P : Byte → Prop} (h : ∀ hi lo : Fin 16, P (BitVec.ofNat 8 (16 * hi + lo))) (b : Byte) : P b := by
  have hb := b.isLt
  have := h ⟨b.toNat / 16, by omega⟩ ⟨b.toNat % 16, by omega⟩
  rwa [show 16 * (b.toNat / 16) + b.toNat % 16 = b.toNat by omega, BitVec.ofNat_toNat,
    BitVec.setWidth_eq] at this

theorem byteRow_eq (b : Byte) : byteRow b =
    if b = wireEND then .frameEnd else if b = wireESC then .esc else if b = wireESC_END then .escEnd
    else if b = wireESC_ESC then .escEsc else if b = wirePAD then .pad else .data :=
  forall_byte (P := fun b => byteRow b =
    if b = wireEND then .frameEnd else if b = wireESC then .esc else if b = wireESC_END then .escEnd
    else if b = wireESC_ESC then .escEsc else if b = wirePAD then .pad else .data) (by decide) b

theorem byteRow_cls (b : Byte) : (byteRow b).cls = byteClass b :=
  forall_byte (P := fun b => (byteRow b).cls = byteClass b) (by decide) b

theorem tagRow_cls (t : Byte) : (tagRow t).cls = tagClass t :=
  forall_byte (P := fun t => (tagRow t).cls = tagClass t) (by decide) t

theorem byteRow_data_iff (b : Byte) : byteRow b = .data ↔ isPlainData b = true :=
  forall_byte (P := fun b => byteRow b = .data ↔ isPlainData b = true) (by decide) b

theorem tagRow_unknown_iff (t : Byte) : tagRow t = .unknown ↔ isUnknownTag t = true :=
  forall_byte (P := fun t => tagRow t = .unknown ↔ isUnknownTag t = true) (by decide) t

/-- The value or the free bits of a tag, by its row. -/
theorem tagRow_value (t : Byte) :
    (tagRow t = .debug → t = 0x0A#8) ∧ (tagRow t = .coap → t = 0xA9#8) ∧ (tagRow t = .ipv4At45 → t = 0x45#8) ∧
    (tagRow t = .ipv4At46 → tagOf46 (lowOf46 t) = t) ∧ (tagRow t = .ipv4At48 → tagOf48 (lowOf48 t) = t) ∧
    (tagRow t = .ipv6 → tagOf60 (lowOf60 t) = t) :=
  forall_byte (P := fun t =>
    (tagRow t = .debug → t = 0x0A#8) ∧ (tagRow t = .coap → t = 0xA9#8) ∧ (tagRow t = .ipv4At45 → t = 0x45#8) ∧
    (tagRow t = .ipv4At46 → tagOf46 (lowOf46 t) = t) ∧ (tagRow t = .ipv4At48 → tagOf48 (lowOf48 t) = t) ∧
    (tagRow t = .ipv6 → tagOf60 (lowOf60 t) = t)) (by decide) t

@[simp] theorem tagRow_tagOf46 (low : BitVec 1) : tagRow (tagOf46 low) = .ipv4At46 := by
  revert low; decide
@[simp] theorem tagRow_tagOf48 (low : BitVec 3) : tagRow (tagOf48 low) = .ipv4At48 := by
  revert low; decide
@[simp] theorem tagRow_tagOf60 (low : BitVec 4) : tagRow (tagOf60 low) = .ipv6 := by
  revert low; decide
@[simp] theorem lowOf46_tagOf46 (low : BitVec 1) : lowOf46 (tagOf46 low) = low := by
  revert low; decide
@[simp] theorem lowOf48_tagOf48 (low : BitVec 3) : lowOf48 (tagOf48 low) = low := by
  revert low; decide
@[simp] theorem lowOf60_tagOf60 (low : BitVec 4) : lowOf60 (tagOf60 low) = low := by
  revert low; decide

/-! ## The byte decoder -/

@[simp] theorem decodeByte_END : decodeByte wireEND = .frameEnd := by decide
@[simp] theorem decodeByte_ESC : decodeByte wireESC = .esc := by decide
@[simp] theorem decodeByte_ESC_END : decodeByte wireESC_END = .escEnd := by decide
@[simp] theorem decodeByte_ESC_ESC : decodeByte wireESC_ESC = .escEsc := by decide
@[simp] theorem decodeByte_PAD : decodeByte wirePAD = .pad := by decide

theorem decodeByte_plain {b : Byte} (h : isPlainData b = true) : decodeByte b = .data b := by
  rw [decodeByte, (byteRow_data_iff b).2 h]

theorem byteClass_data_iff (b : Byte) : byteClass b = .data ↔ b ≠ wireESC ∧ b ≠ wireEND := by
  unfold byteClass; split
  · simp_all
  · split <;> simp_all

/-- A byte is ESC, END, one of the three named data bytes, or plain data: the case split of every proof about a
byte. -/
theorem byte_cases (b : Byte) : b = wireEND ∨ b = wireESC ∨ b = wireESC_END ∨ b = wireESC_ESC ∨ b = wirePAD ∨
    isPlainData b = true :=
  forall_byte (P := fun b => b = wireEND ∨ b = wireESC ∨ b = wireESC_END ∨ b = wireESC_ESC ∨ b = wirePAD ∨
    isPlainData b = true) (by decide) b

end Sys2Proof
end

