-- ==== Sys2Proof/Laws/Operands.lean ====
section
/-! SUPPORT. What `unescape`, `strip0` and `stuff` compute. -/

namespace Sys2Proof.Machine

@[simp] theorem unescape_false (b : Byte) : unescape false b = b := by simp [unescape]
@[simp] theorem unescape_END : unescape true wireESC_END = wireEND := by decide
@[simp] theorem unescape_ESC : unescape true wireESC_ESC = wireESC := by decide

theorem unescape_of_ne {esc : Bool} {b : Byte} (h1 : b ≠ wireESC_END) (h2 : b ≠ wireESC_ESC) :
    unescape esc b = b := by
  simp [unescape, h1, h2]

@[simp] theorem strip0_nil : strip0 [] = [] := rfl
@[simp] theorem strip0_zero (t : List Byte) : strip0 (wirePAD :: t) = strip0 t := by simp [strip0]

theorem strip0_cons_ne {b : Byte} (h : b ≠ wirePAD) (t : List Byte) : strip0 (b :: t) = b :: t := by
  simp [strip0, h]

/-- `strip0` removes zeros from the front and nothing else. -/
theorem strip0_spec (s : List Byte) : ∃ n, s = List.replicate n wirePAD ++ strip0 s := by
  induction s with
  | nil => exact ⟨0, rfl⟩
  | cons b t ih =>
    by_cases h : b = wirePAD
    · obtain ⟨n, hn⟩ := ih
      refine ⟨n + 1, ?_⟩
      subst h
      rw [strip0_zero, List.replicate_succ, List.cons_append, ← hn]
    · exact ⟨0, by rw [strip0_cons_ne h]; rfl⟩

/-- An emitted sequence never begins with a zero (40_decoder.md R57 point 5). -/
theorem strip0_head_ne (s t : List Byte) : strip0 s ≠ wirePAD :: t := by
  induction s with
  | nil => simp
  | cons b u ih =>
    by_cases h : b = wirePAD
    · subst h; simpa using ih
    · rw [strip0_cons_ne h]; simp [h]

theorem strip0_replicate_append (n : Nat) (s : List Byte) :
    strip0 (List.replicate n wirePAD ++ s) = strip0 s := by
  induction n with
  | zero => rfl
  | succ n ih => rw [List.replicate_succ, List.cons_append, strip0_zero, ih]

end Sys2Proof.Machine

namespace Sys2Proof

@[simp] theorem stuff_nil : stuff [] = [] := rfl
@[simp] theorem stuff_END (t : List Byte) : stuff (wireEND :: t) = wireESC :: wireESC_END :: stuff t := by
  simp [stuff]
@[simp] theorem stuff_ESC (t : List Byte) : stuff (wireESC :: t) = wireESC :: wireESC_ESC :: stuff t := by
  rw [stuff, if_neg (by decide), if_pos rfl]
theorem stuff_other {b : Byte} (h1 : b ≠ wireEND) (h2 : b ≠ wireESC) (t : List Byte) :
    stuff (b :: t) = b :: stuff t := by
  simp [stuff, h1, h2]

end Sys2Proof
end

