-- ==== Sys2Proof/Laws/State.lean ====
section
/-! SUPPORT. What each state update does to each field, one lemma each. -/

namespace Sys2Proof.Machine

variable (s : State)

/-! ## setEsc -/

@[simp] theorem State.setEsc_cfg : s.setEsc.cfg = s.cfg := rfl
@[simp] theorem State.setEsc_rx : s.setEsc.rx = s.rx := rfl
@[simp] theorem State.setEsc_rxEnded : s.setEsc.rxEnded = s.rxEnded := rfl
@[simp] theorem State.setEsc_rxpos : s.setEsc.rxpos = s.rxpos := rfl
@[simp] theorem State.setEsc_buf : s.setEsc.buf = s.buf := rfl
@[simp] theorem State.setEsc_esc : s.setEsc.esc = true := rfl
@[simp] theorem State.setEsc_fault : s.setEsc.fault = s.fault := rfl
@[simp] theorem State.setEsc_hostOut : s.setEsc.hostOut = s.hostOut := rfl
@[simp] theorem State.setEsc_cond : s.setEsc.cond = s.cond := rfl
@[simp] theorem State.setEsc_diag : s.setEsc.diag = s.diag := rfl

/-! ## clearEsc -/

@[simp] theorem State.clearEsc_cfg : s.clearEsc.cfg = s.cfg := rfl
@[simp] theorem State.clearEsc_rx : s.clearEsc.rx = s.rx := rfl
@[simp] theorem State.clearEsc_rxEnded : s.clearEsc.rxEnded = s.rxEnded := rfl
@[simp] theorem State.clearEsc_rxpos : s.clearEsc.rxpos = s.rxpos := rfl
@[simp] theorem State.clearEsc_buf : s.clearEsc.buf = s.buf := rfl
@[simp] theorem State.clearEsc_esc : s.clearEsc.esc = false := rfl
@[simp] theorem State.clearEsc_fault : s.clearEsc.fault = s.fault := rfl
@[simp] theorem State.clearEsc_hostOut : s.clearEsc.hostOut = s.hostOut := rfl
@[simp] theorem State.clearEsc_cond : s.clearEsc.cond = s.cond := rfl
@[simp] theorem State.clearEsc_diag : s.clearEsc.diag = s.diag := rfl

/-! ## deliver -/

@[simp] theorem State.deliver_cfg (chunk : List Byte) : (s.deliver chunk).cfg = s.cfg := rfl
@[simp] theorem State.deliver_rx (chunk : List Byte) : (s.deliver chunk).rx = s.rx ++ chunk := rfl
@[simp] theorem State.deliver_rxEnded (chunk : List Byte) : (s.deliver chunk).rxEnded = s.rxEnded := rfl
@[simp] theorem State.deliver_rxpos (chunk : List Byte) : (s.deliver chunk).rxpos = s.rxpos := rfl
@[simp] theorem State.deliver_buf (chunk : List Byte) : (s.deliver chunk).buf = s.buf := rfl
@[simp] theorem State.deliver_esc (chunk : List Byte) : (s.deliver chunk).esc = s.esc := rfl
@[simp] theorem State.deliver_fault (chunk : List Byte) : (s.deliver chunk).fault = s.fault := rfl
@[simp] theorem State.deliver_hostOut (chunk : List Byte) : (s.deliver chunk).hostOut = s.hostOut := rfl
@[simp] theorem State.deliver_cond (chunk : List Byte) : (s.deliver chunk).cond = s.cond := rfl
@[simp] theorem State.deliver_diag (chunk : List Byte) : (s.deliver chunk).diag = s.diag := rfl

/-! ## endOfStream -/

@[simp] theorem State.endOfStream_cfg : s.endOfStream.cfg = s.cfg := rfl
@[simp] theorem State.endOfStream_rx : s.endOfStream.rx = s.rx := rfl
@[simp] theorem State.endOfStream_rxEnded : s.endOfStream.rxEnded = true := rfl
@[simp] theorem State.endOfStream_rxpos : s.endOfStream.rxpos = s.rxpos := rfl
@[simp] theorem State.endOfStream_buf : s.endOfStream.buf = s.buf := rfl
@[simp] theorem State.endOfStream_esc : s.endOfStream.esc = s.esc := rfl
@[simp] theorem State.endOfStream_fault : s.endOfStream.fault = s.fault := rfl
@[simp] theorem State.endOfStream_hostOut : s.endOfStream.hostOut = s.hostOut := rfl
@[simp] theorem State.endOfStream_cond : s.endOfStream.cond = s.cond := rfl
@[simp] theorem State.endOfStream_diag : s.endOfStream.diag = s.diag := rfl

/-! ## appendBuf -/

@[simp] theorem State.appendBuf_cfg (v : Byte) : (s.appendBuf v).cfg = s.cfg := rfl
@[simp] theorem State.appendBuf_rx (v : Byte) : (s.appendBuf v).rx = s.rx := rfl
@[simp] theorem State.appendBuf_rxEnded (v : Byte) : (s.appendBuf v).rxEnded = s.rxEnded := rfl
@[simp] theorem State.appendBuf_rxpos (v : Byte) : (s.appendBuf v).rxpos = s.rxpos := rfl
@[simp] theorem State.appendBuf_buf (v : Byte) : (s.appendBuf v).buf = s.buf ++ [v] := rfl
@[simp] theorem State.appendBuf_esc (v : Byte) : (s.appendBuf v).esc = s.esc := rfl
@[simp] theorem State.appendBuf_fault (v : Byte) : (s.appendBuf v).fault = s.fault := rfl
@[simp] theorem State.appendBuf_hostOut (v : Byte) : (s.appendBuf v).hostOut = s.hostOut := rfl
@[simp] theorem State.appendBuf_cond (v : Byte) : (s.appendBuf v).cond = s.cond := rfl
@[simp] theorem State.appendBuf_diag (v : Byte) : (s.appendBuf v).diag = s.diag := rfl

/-! ## clearBuf -/

@[simp] theorem State.clearBuf_cfg : s.clearBuf.cfg = s.cfg := rfl
@[simp] theorem State.clearBuf_rx : s.clearBuf.rx = s.rx := rfl
@[simp] theorem State.clearBuf_rxEnded : s.clearBuf.rxEnded = s.rxEnded := rfl
@[simp] theorem State.clearBuf_rxpos : s.clearBuf.rxpos = s.rxpos := rfl
@[simp] theorem State.clearBuf_buf : s.clearBuf.buf = [] := rfl
@[simp] theorem State.clearBuf_esc : s.clearBuf.esc = s.esc := rfl
@[simp] theorem State.clearBuf_fault : s.clearBuf.fault = s.fault := rfl
@[simp] theorem State.clearBuf_hostOut : s.clearBuf.hostOut = s.hostOut := rfl
@[simp] theorem State.clearBuf_cond : s.clearBuf.cond = s.cond := rfl
@[simp] theorem State.clearBuf_diag : s.clearBuf.diag = s.diag := rfl

/-! ## appendHostOut -/

@[simp] theorem State.appendHostOut_cfg (p : List Byte) : (s.appendHostOut p).cfg = s.cfg := rfl
@[simp] theorem State.appendHostOut_rx (p : List Byte) : (s.appendHostOut p).rx = s.rx := rfl
@[simp] theorem State.appendHostOut_rxEnded (p : List Byte) : (s.appendHostOut p).rxEnded = s.rxEnded := rfl
@[simp] theorem State.appendHostOut_rxpos (p : List Byte) : (s.appendHostOut p).rxpos = s.rxpos := rfl
@[simp] theorem State.appendHostOut_buf (p : List Byte) : (s.appendHostOut p).buf = s.buf := rfl
@[simp] theorem State.appendHostOut_esc (p : List Byte) : (s.appendHostOut p).esc = s.esc := rfl
@[simp] theorem State.appendHostOut_fault (p : List Byte) : (s.appendHostOut p).fault = s.fault := rfl
@[simp] theorem State.appendHostOut_hostOut (p : List Byte) : (s.appendHostOut p).hostOut = s.hostOut ++ p := rfl
@[simp] theorem State.appendHostOut_cond (p : List Byte) : (s.appendHostOut p).cond = s.cond := rfl
@[simp] theorem State.appendHostOut_diag (p : List Byte) : (s.appendHostOut p).diag = s.diag := rfl

/-! ## appendCond -/

@[simp] theorem State.appendCond_cfg (c : Condition) : (s.appendCond c).cfg = s.cfg := rfl
@[simp] theorem State.appendCond_rx (c : Condition) : (s.appendCond c).rx = s.rx := rfl
@[simp] theorem State.appendCond_rxEnded (c : Condition) : (s.appendCond c).rxEnded = s.rxEnded := rfl
@[simp] theorem State.appendCond_rxpos (c : Condition) : (s.appendCond c).rxpos = s.rxpos := rfl
@[simp] theorem State.appendCond_buf (c : Condition) : (s.appendCond c).buf = s.buf := rfl
@[simp] theorem State.appendCond_esc (c : Condition) : (s.appendCond c).esc = s.esc := rfl
@[simp] theorem State.appendCond_fault (c : Condition) : (s.appendCond c).fault = s.fault := rfl
@[simp] theorem State.appendCond_hostOut (c : Condition) : (s.appendCond c).hostOut = s.hostOut := rfl
@[simp] theorem State.appendCond_cond (c : Condition) : (s.appendCond c).cond = s.cond ++ [c] := rfl
@[simp] theorem State.appendCond_diag (c : Condition) : (s.appendCond c).diag = s.diag := rfl

/-! ## appendDiag -/

@[simp] theorem State.appendDiag_cfg (r : DiagRecord) : (s.appendDiag r).cfg = s.cfg := rfl
@[simp] theorem State.appendDiag_rx (r : DiagRecord) : (s.appendDiag r).rx = s.rx := rfl
@[simp] theorem State.appendDiag_rxEnded (r : DiagRecord) : (s.appendDiag r).rxEnded = s.rxEnded := rfl
@[simp] theorem State.appendDiag_rxpos (r : DiagRecord) : (s.appendDiag r).rxpos = s.rxpos := rfl
@[simp] theorem State.appendDiag_buf (r : DiagRecord) : (s.appendDiag r).buf = s.buf := rfl
@[simp] theorem State.appendDiag_esc (r : DiagRecord) : (s.appendDiag r).esc = s.esc := rfl
@[simp] theorem State.appendDiag_fault (r : DiagRecord) : (s.appendDiag r).fault = s.fault := rfl
@[simp] theorem State.appendDiag_hostOut (r : DiagRecord) : (s.appendDiag r).hostOut = s.hostOut := rfl
@[simp] theorem State.appendDiag_cond (r : DiagRecord) : (s.appendDiag r).cond = s.cond := rfl
@[simp] theorem State.appendDiag_diag (r : DiagRecord) : (s.appendDiag r).diag = s.diag ++ [r] := rfl

/-! ## setFault -/

@[simp] theorem State.setFault_cfg (c : Condition) : (s.setFault c).cfg = s.cfg := rfl
@[simp] theorem State.setFault_rx (c : Condition) : (s.setFault c).rx = s.rx := rfl
@[simp] theorem State.setFault_rxEnded (c : Condition) : (s.setFault c).rxEnded = s.rxEnded := rfl
@[simp] theorem State.setFault_rxpos (c : Condition) : (s.setFault c).rxpos = s.rxpos := rfl
@[simp] theorem State.setFault_buf (c : Condition) : (s.setFault c).buf = s.buf := rfl
@[simp] theorem State.setFault_esc (c : Condition) : (s.setFault c).esc = s.esc := rfl
@[simp] theorem State.setFault_fault (c : Condition) : (s.setFault c).fault = some c := rfl
@[simp] theorem State.setFault_hostOut (c : Condition) : (s.setFault c).hostOut = s.hostOut := rfl
@[simp] theorem State.setFault_cond (c : Condition) : (s.setFault c).cond = s.cond := rfl
@[simp] theorem State.setFault_diag (c : Condition) : (s.setFault c).diag = s.diag := rfl

/-! ## resetEvent -/

@[simp] theorem State.resetEvent_cfg : s.resetEvent.cfg = s.cfg := rfl
@[simp] theorem State.resetEvent_rx : s.resetEvent.rx = s.rx := rfl
@[simp] theorem State.resetEvent_rxEnded : s.resetEvent.rxEnded = s.rxEnded := rfl
@[simp] theorem State.resetEvent_rxpos : s.resetEvent.rxpos = 0 := rfl
@[simp] theorem State.resetEvent_buf : s.resetEvent.buf = [] := rfl
@[simp] theorem State.resetEvent_esc : s.resetEvent.esc = false := rfl
@[simp] theorem State.resetEvent_fault : s.resetEvent.fault = none := rfl
@[simp] theorem State.resetEvent_hostOut : s.resetEvent.hostOut = s.hostOut := rfl
@[simp] theorem State.resetEvent_cond : s.resetEvent.cond = s.cond := rfl
@[simp] theorem State.resetEvent_diag : s.resetEvent.diag = s.diag := rfl

end Sys2Proof.Machine
end

