-- ==== Sys2Proof/Laws/Ops.lean ====
section
/-! SUPPORT. What raising a condition does to each field, and what taking a byte off RX gives. -/

namespace Sys2Proof.Machine

variable (c : Condition) (s : State)

@[simp] theorem raise_cfg : (raise c s).cfg = s.cfg := by unfold raise; split <;> rfl
@[simp] theorem raise_rx : (raise c s).rx = s.rx := by unfold raise; split <;> rfl
@[simp] theorem raise_rxEnded : (raise c s).rxEnded = s.rxEnded := by unfold raise; split <;> rfl
@[simp] theorem raise_rxpos : (raise c s).rxpos = s.rxpos := by unfold raise; split <;> rfl
@[simp] theorem raise_buf : (raise c s).buf = s.buf := by unfold raise; split <;> rfl
@[simp] theorem raise_esc : (raise c s).esc = s.esc := by unfold raise; split <;> rfl
@[simp] theorem raise_hostOut : (raise c s).hostOut = s.hostOut := by unfold raise; split <;> rfl
@[simp] theorem raise_cond : (raise c s).cond = s.cond ++ [c] := by unfold raise; split <;> rfl
@[simp] theorem raise_diag : (raise c s).diag = s.diag := by unfold raise; split <;> rfl
@[simp] theorem raise_fault : (raise c s).fault = if c.isFatal s.cfg then some c else s.fault := by
  unfold raise; split <;> rfl

/-- Raising writes COND and, when fatal, the fault record, and nothing else (60_exceptions.md R105, R106). -/
theorem raise_eq : raise c s =
    { s with cond := s.cond ++ [c], fault := if c.isFatal s.cfg then some c else s.fault } := by
  unfold raise; split <;> rfl

theorem bufFull_iff : s.bufFull = true ↔ s.cfg.bufCap = some s.buf.length := by simp [State.bufFull]

theorem bufFull_eq_false_iff : s.bufFull = false ↔ s.cfg.bufCap ≠ some s.buf.length := by
  simp [State.bufFull]

theorem rxNext_nil {s : State} (h : s.rx = []) : rxNext s = none := by simp [rxNext, h]

theorem rxNext_cons {s : State} {b : Byte} {rest : List Byte} (h : s.rx = b :: rest) :
    rxNext s = some (b, { s with rx := rest, rxpos := s.rxpos + 1 }) := by
  simp [rxNext, h]

end Sys2Proof.Machine
end

