-- ==== Sys2Proof/Laws/Utf8.lean ====
section
/-! SUPPORT. The scan of R92 against the table of R91: what it does at the boundary between two sequences. -/

namespace Sys2Proof.Machine

/-- `w` fills the ranges `need`, byte for byte. -/
abbrev Fills (need : List ByteRange) (w : List Byte) : Prop := List.Forall₂ (fun r b => r.holds b = true) need w

theorem utf8Scan_start (start start' i : Nat) (p : List Byte) : utf8Scan start i [] p = utf8Scan start' i [] p := by
  cases p <;> rfl

theorem utf8Scan_fills {need : List ByteRange} {w : List Byte} (h : Fills need w) (start i : Nat) (rest : List Byte) :
    utf8Scan start i need (w ++ rest) = utf8Scan start (i + w.length) [] rest := by
  induction h generalizing i with
  | nil => rfl
  | cons hb _ ih =>
    rw [List.cons_append, utf8Scan]
    simp only [hb, if_true, ih, List.length_cons]
    congr 1; omega

theorem utf8Scan_stuck {need : List ByteRange} {p : List Byte} (start i : Nat)
    (h : ∀ w rest, p = w ++ rest → ¬ Fills need w) : utf8Scan start i need p = .bad start := by
  induction need generalizing p i with
  | nil => exact absurd .nil (h [] p rfl)
  | cons r more ih =>
    cases p with
    | nil => rfl
    | cons b t =>
      by_cases hb : r.holds b = true
      · simp only [utf8Scan, hb, if_true]
        exact ih (i + 1) fun w rest hw hf => h (b :: w) rest (by rw [hw]; rfl) (.cons hb hf)
      · simp only [utf8Scan, hb, if_false, Bool.false_eq_true]

/-- The row of a first byte: the rows of the table have disjoint first ranges, so the first row found is the one. -/
theorem utf8RowOf_of_mem {row : Utf8Row} {b : Byte} (hr : row ∈ utf8Table) (hb : row.first.holds b = true) :
    utf8RowOf b = some row := by
  revert b
  have key : ∀ row ∈ utf8Table, ∀ hi lo : Fin 16, row.first.holds (BitVec.ofNat 8 (16 * hi + lo)) = true →
      utf8RowOf (BitVec.ofNat 8 (16 * hi + lo)) = some row := by decide
  intro b
  exact forall_byte (P := fun b => row.first.holds b = true → utf8RowOf b = some row) (key row hr) b

theorem utf8RowOf_mem {row : Utf8Row} {b : Byte} (h : utf8RowOf b = some row) :
    row ∈ utf8Table ∧ row.first.holds b = true := by
  have h' : utf8Table.find? (fun r => r.first.holds b) = some row := h
  exact ⟨List.mem_of_find?_eq_some h', by simpa using List.find?_some h'⟩

theorem ByteRange.holds_iff (r : ByteRange) (b : Byte) : r.holds b = true ↔ r.lo ≤ b ∧ b ≤ r.hi := by
  simp [ByteRange.holds, Byte.inRange]

/-- One well-formed sequence is a byte of some row and bytes that fill the row's further ranges. -/
theorem isUtf8Sequence_iff_row (q : List Byte) :
    IsUtf8Sequence q ↔ ∃ b w row, q = b :: w ∧ row ∈ utf8Table ∧ row.first.holds b = true ∧ Fills row.further w := by
  constructor
  · intro h
    match q, h with
    | [a], h =>
      exact ⟨a, [], utf8Table[0], rfl, by decide, by simpa [utf8Table, ByteRange.holds_iff] using ⟨by bv_omega, h⟩, .nil⟩
    | [a, b], h =>
      refine ⟨a, [b], utf8Table[1], rfl, by decide, ?_, .cons ?_ .nil⟩ <;>
      simp_all [utf8Table, ByteRange.holds_iff, IsUtf8Sequence, contByte]
    | [a, b, c], h =>
      obtain ⟨h | h | h | h, hc⟩ := h
      · refine ⟨a, [b, c], utf8Table[2], rfl, by decide, ?_, .cons ?_ (.cons ?_ .nil)⟩ <;>
        simp_all [utf8Table, ByteRange.holds_iff, contByte]
      · refine ⟨a, [b, c], utf8Table[3], rfl, by decide, ?_, .cons ?_ (.cons ?_ .nil)⟩ <;>
        simp_all [utf8Table, ByteRange.holds_iff, contByte]
      · refine ⟨a, [b, c], utf8Table[4], rfl, by decide, ?_, .cons ?_ (.cons ?_ .nil)⟩ <;>
        simp_all [utf8Table, ByteRange.holds_iff, contByte]
      · refine ⟨a, [b, c], utf8Table[5], rfl, by decide, ?_, .cons ?_ (.cons ?_ .nil)⟩ <;>
        simp_all [utf8Table, ByteRange.holds_iff, contByte]
    | [a, b, c, d], h =>
      obtain ⟨h | h | h, hc, hd⟩ := h
      · refine ⟨a, [b, c, d], utf8Table[6], rfl, by decide, ?_, .cons ?_ (.cons ?_ (.cons ?_ .nil))⟩ <;>
        simp_all [utf8Table, ByteRange.holds_iff, contByte]
      · refine ⟨a, [b, c, d], utf8Table[7], rfl, by decide, ?_, .cons ?_ (.cons ?_ (.cons ?_ .nil))⟩ <;>
        simp_all [utf8Table, ByteRange.holds_iff, contByte]
      · refine ⟨a, [b, c, d], utf8Table[8], rfl, by decide, ?_, .cons ?_ (.cons ?_ (.cons ?_ .nil))⟩ <;>
        simp_all [utf8Table, ByteRange.holds_iff, contByte]
  · rintro ⟨a, w, row, rfl, hm, ha, hw⟩
    simp only [utf8Table, List.mem_cons, List.not_mem_nil, or_false] at hm
    rcases hm with rfl | rfl | rfl | rfl | rfl | rfl | rfl | rfl | rfl <;>
      simp only [ByteRange.holds_iff] at ha
    · obtain _ | _ := hw
      exact ha.2
    · obtain _ | ⟨h1, _ | _⟩ := hw
      exact ⟨ha, (ByteRange.holds_iff _ _).1 h1⟩
    · obtain _ | ⟨h1, _ | ⟨h2, _ | _⟩⟩ := hw
      exact ⟨.inl ⟨by bv_omega, (ByteRange.holds_iff _ _).1 h1⟩, (ByteRange.holds_iff _ _).1 h2⟩
    · obtain _ | ⟨h1, _ | ⟨h2, _ | _⟩⟩ := hw
      exact ⟨.inr (.inl ⟨ha.1, ha.2, (ByteRange.holds_iff _ _).1 h1⟩), (ByteRange.holds_iff _ _).1 h2⟩
    · obtain _ | ⟨h1, _ | ⟨h2, _ | _⟩⟩ := hw
      exact ⟨.inr (.inr (.inl ⟨by bv_omega, (ByteRange.holds_iff _ _).1 h1⟩)), (ByteRange.holds_iff _ _).1 h2⟩
    · obtain _ | ⟨h1, _ | ⟨h2, _ | _⟩⟩ := hw
      exact ⟨.inr (.inr (.inr ⟨ha.1, ha.2, (ByteRange.holds_iff _ _).1 h1⟩)), (ByteRange.holds_iff _ _).1 h2⟩
    · obtain _ | ⟨h1, _ | ⟨h2, _ | ⟨h3, _ | _⟩⟩⟩ := hw
      exact ⟨.inl ⟨by bv_omega, (ByteRange.holds_iff _ _).1 h1⟩, (ByteRange.holds_iff _ _).1 h2,
        (ByteRange.holds_iff _ _).1 h3⟩
    · obtain _ | ⟨h1, _ | ⟨h2, _ | ⟨h3, _ | _⟩⟩⟩ := hw
      exact ⟨.inr (.inl ⟨ha.1, ha.2, (ByteRange.holds_iff _ _).1 h1⟩), (ByteRange.holds_iff _ _).1 h2,
        (ByteRange.holds_iff _ _).1 h3⟩
    · obtain _ | ⟨h1, _ | ⟨h2, _ | ⟨h3, _ | _⟩⟩⟩ := hw
      exact ⟨.inr (.inr ⟨by bv_omega, (ByteRange.holds_iff _ _).1 h1⟩), (ByteRange.holds_iff _ _).1 h2,
        (ByteRange.holds_iff _ _).1 h3⟩

theorem IsUtf8Sequence.ne_nil {q : List Byte} (h : IsUtf8Sequence q) : q ≠ [] := by
  rintro rfl; exact h

/-- The scan passes over a well-formed sequence. -/
theorem utf8Scan_sequence {q : List Byte} (h : IsUtf8Sequence q) (start start' i : Nat) (rest : List Byte) :
    utf8Scan start i [] (q ++ rest) = utf8Scan start' (i + q.length) [] rest := by
  obtain ⟨b, w, row, rfl, hm, hb, hw⟩ := (isUtf8Sequence_iff_row q).1 h
  rw [List.cons_append, utf8Scan]
  simp only [utf8RowOf_of_mem hm hb, utf8Scan_fills hw, List.length_cons]
  rw [utf8Scan_start i start']
  congr 1; omega

/-- The scan stops where no well-formed sequence begins, and reports that place. -/
theorem utf8Scan_no_sequence {p : List Byte} (hp : p ≠ []) (h : ∀ n, ¬ IsUtf8Sequence (p.take n)) (start i : Nat) :
    utf8Scan start i [] p = .bad i := by
  obtain ⟨b, t, rfl⟩ := List.exists_cons_of_ne_nil hp
  rw [utf8Scan]
  cases hr : utf8RowOf b with
  | none => rfl
  | some row =>
    obtain ⟨hm, hb⟩ := utf8RowOf_mem hr
    refine utf8Scan_stuck i (i + 1) fun w rest hw hf => h (w.length + 1) ?_
    rw [isUtf8Sequence_iff_row]
    exact ⟨b, w, row, by simp [hw], hm, hb, hf⟩

/-! ## Text -/

theorem isUtf8Text_nil : IsUtf8Text [] := ⟨[], rfl, by simp⟩

theorem IsUtf8Text.append {p q : List Byte} (hp : IsUtf8Text p) (hq : IsUtf8Text q) : IsUtf8Text (p ++ q) := by
  obtain ⟨l, rfl, hl⟩ := hp
  obtain ⟨m, rfl, hm⟩ := hq
  exact ⟨l ++ m, by simp, fun x hx => (List.mem_append.1 hx).elim (hl x) (hm x)⟩

theorem IsUtf8Sequence.text {q : List Byte} (h : IsUtf8Sequence q) : IsUtf8Text q :=
  ⟨[q], by simp, by simpa using h⟩

/-- The scan passes over well-formed text. -/
theorem utf8Scan_text {p : List Byte} (h : IsUtf8Text p) (start start' i : Nat) (rest : List Byte) :
    utf8Scan start i [] (p ++ rest) = utf8Scan start' (i + p.length) [] rest := by
  obtain ⟨seqs, rfl, hs⟩ := h
  induction seqs generalizing i with
  | nil => exact utf8Scan_start ..
  | cons q seqs ih =>
    rw [List.flatten_cons, List.append_assoc,
      utf8Scan_sequence (hs q (by simp)) start start, ih (i + q.length) (fun x hx => hs x (by simp [hx])),
      List.length_append, Nat.add_assoc]

/-- Every byte sequence is text, or text up to a place where no well-formed sequence begins. -/
theorem utf8_text_or_stop (p : List Byte) : IsUtf8Text p ∨
    ∃ t rest, p = t ++ rest ∧ IsUtf8Text t ∧ rest ≠ [] ∧ ∀ n, ¬ IsUtf8Sequence (rest.take n) := by
  induction hn : p.length using Nat.strong_induction_on generalizing p with
  | _ n ih =>
    by_cases hp : p = []
    · exact .inl (hp ▸ isUtf8Text_nil)
    by_cases h : ∃ k, IsUtf8Sequence (p.take k)
    · obtain ⟨k, hk⟩ := h
      have hpos : 0 < (p.take k).length := List.length_pos_iff.2 hk.ne_nil
      have hlen := congrArg List.length (List.take_append_drop k p)
      rw [List.length_append] at hlen
      rcases ih (p.drop k).length (by omega) (p.drop k) rfl with ht | ⟨t, rest, he, ht, hr, hno⟩
      · left; rw [← List.take_append_drop k p]; exact hk.text.append ht
      · right
        exact ⟨p.take k ++ t, rest, by rw [List.append_assoc, ← he, List.take_append_drop], hk.text.append ht, hr, hno⟩
    · exact .inr ⟨[], p, rfl, isUtf8Text_nil, hp, fun k hk => h ⟨k, hk⟩⟩

/-- What the check answers where the text stops. -/
theorem utf8Check_stop {t rest : List Byte} (ht : IsUtf8Text t) (hr : rest ≠ [])
    (hno : ∀ n, ¬ IsUtf8Sequence (rest.take n)) : utf8Check (t ++ rest) = .bad t.length := by
  rw [utf8Check, utf8Scan_text ht 0 0, utf8Scan_no_sequence hr hno, Nat.zero_add]

end Sys2Proof.Machine
end

