-- ==== Sys2Proof/Laws/Exec.lean ====
section
/-! SUPPORT. What the shared meanings can do, said once: the data byte, the debug handler, the routing, the dispatch. -/

namespace Sys2Proof.Machine

/-- Routing is the meaning of the decoded instruction (41_dispatcher.md R73). -/
theorem route_eq_exec (tag : Byte) (payload : List Byte) (s : State) :
    route tag payload s = exec (decodeTag tag payload) s := by
  unfold route decodeTag
  cases tagRow tag <;> rfl

/-- A data byte is appended, or it meets a full buffer (40_decoder.md R53). -/
theorem feedData_eq (b : Byte) (s : State) : feedData b s = .next (
    if s.cfg.bufCap = some s.buf.length then raise (.bufOverflow b) s
    else (s.appendBuf (unescape s.esc b)).clearEsc) := by
  unfold feedData
  by_cases h : s.cfg.bufCap = some s.buf.length
  · rw [if_pos ((bufFull_iff s).2 h), if_pos h]
  · rw [if_neg (by simpa [State.bufFull] using h), if_neg h]

/-- Every byte but ESC and END is fed as a data byte (R50). -/
theorem feed_data {b : Byte} (h1 : b ≠ wireESC) (h2 : b ≠ wireEND) (s : State) : feed b s = feedData b s := by
  rcases byte_cases b with rfl | rfl | rfl | rfl | rfl | h
  · exact absurd rfl h2
  · exact absurd rfl h1
  · rfl
  · rfl
  · rfl
  · rw [feed, decodeByte_plain h]; rfl

theorem feed_ESC (s : State) : feed wireESC s = .next s.setEsc := rfl

theorem feed_END (s : State) : feed wireEND s = dispatch (strip0 s.buf) s.clearBuf.clearEsc := rfl

/-- The debug handler writes the payload, or raises one malformed-text condition (R74). -/
theorem execDebug_cases (p : List Byte) (s : State) :
    (utf8Check p = .ok ∧ IsUtf8Text p ∧ execDebug p s = .next (s.appendHostOut p)) ∨
    ∃ t b rest, p = t ++ b :: rest ∧ IsUtf8Text t ∧ (∀ n, ¬ IsUtf8Sequence ((b :: rest).take n)) ∧
      utf8Check p = .bad t.length ∧ execDebug p s = .next (raise (.malformedText t.length b) s) := by
  rcases utf8_text_or_stop p with h | ⟨t, rest, rfl, ht, hr, hno⟩
  · have hk : utf8Check p = .ok := by simpa [utf8Check, utf8Scan] using utf8Scan_text h 0 0 0 []
    exact .inl ⟨hk, h, by simp only [execDebug, hk]⟩
  · obtain ⟨b, rest, rfl⟩ := List.exists_cons_of_ne_nil hr
    have hk := utf8Check_stop ht hr hno
    refine .inr ⟨t, b, rest, rfl, ht, hno, hk, ?_⟩
    simp only [execDebug, hk]
    simp [List.getD]

/-- The conditions a handler can raise for a tag other than 0x0A. -/
def tagCondition (tag : Byte) : Condition :=
  match tagClass tag with
  | .ipv4 => .unimplemented .ipv4 tag
  | .ipv6 => .unimplemented .ipv6 tag
  | .coap => .unimplemented .coap tag
  | .debug => .unknownTag tag
  | .unknown => .unknownTag tag

/-- A handler of a class other than DEBUG raises the condition of its tag (R76 to R79). -/
theorem route_not_debug {tag : Byte} (h : tagClass tag ≠ .debug) (payload : List Byte) (s : State) :
    route tag payload s = .next (raise (tagCondition tag) s) := by
  have hc := tagRow_cls tag
  obtain ⟨-, h2, h3, h4, h5, h6⟩ := tagRow_value tag
  unfold route tagCondition
  rw [← hc] at h ⊢
  cases hr : tagRow tag <;> rw [hr] at h <;> simp only [TagRow.cls]
  · exact absurd rfl h
  · rw [h2 hr]; rfl
  · rw [h3 hr]; rfl
  · rw [execIpv4At46, h4 hr]; rfl
  · rw [execIpv4At48, h5 hr]; rfl
  · rw [execIpv6, h6 hr]; rfl
  · rfl

theorem tagClass_debug {tag : Byte} (h : tagClass tag = .debug) : tag = 0x0A#8 := by
  have hc := tagRow_cls tag
  apply (tagRow_value tag).1
  rw [h] at hc
  cases hr : tagRow tag <;> rw [hr] at hc <;> simp_all [TagRow.cls]

theorem route_debug (payload : List Byte) (s : State) : route 0x0A#8 payload s = execDebug payload s := rfl

/-- The four outcomes of a dispatch (41_dispatcher.md section 4): discarded, printed, malformed, or the condition of
the tag. -/
theorem dispatch_cases (f : List Byte) (s : State) :
    let s₁ := s.appendDiag (.frameReceived f)
    (f.length ≤ 1 ∧ dispatch f s = .next s₁) ∨
    (∃ p, p ≠ [] ∧ f = 0x0A#8 :: p ∧ IsUtf8Text p ∧ dispatch f s = .next (s₁.appendHostOut p)) ∨
    (∃ t b rest, f = 0x0A#8 :: (t ++ b :: rest) ∧ IsUtf8Text t ∧ (∀ n, ¬ IsUtf8Sequence ((b :: rest).take n)) ∧
      dispatch f s = .next (raise (.malformedText t.length b) s₁)) ∨
    (∃ tag p, p ≠ [] ∧ f = tag :: p ∧ tagClass tag ≠ .debug ∧ dispatch f s = .next (raise (tagCondition tag) s₁)) := by
  match f with
  | [] => exact .inl ⟨by simp, rfl⟩
  | [_] => exact .inl ⟨by simp, rfl⟩
  | tag :: q :: qs =>
    by_cases h : tagClass tag = .debug
    · obtain rfl := tagClass_debug h
      rcases execDebug_cases (q :: qs) (s.appendDiag (.frameReceived (0x0A#8 :: q :: qs))) with ⟨-, ht, he⟩ | ⟨t, b, rest, hp, ht, hno, -, he⟩
      · exact .inr (.inl ⟨_, by simp, rfl, ht, he⟩)
      · exact .inr (.inr (.inl ⟨t, b, rest, by rw [← hp], ht, hno, he⟩))
    · exact .inr (.inr (.inr ⟨tag, q :: qs, by simp, rfl, h, route_not_debug h _ _⟩))

end Sys2Proof.Machine
end

