-- ==== Sys2Proof/Laws/Step.lean ====
section
/-! SUPPORT. What one step can do, said once. -/

namespace Sys2Proof.Machine

/-- The block's state after it has taken the head byte of RX and before it feeds it (40_decoder.md R50). -/
def State.taken (s : State) (rest : List Byte) : State := { s with rx := rest, rxpos := s.rxpos + 1 }

@[simp] theorem State.taken_cfg (s : State) (r : List Byte) : (s.taken r).cfg = s.cfg := rfl
@[simp] theorem State.taken_rx (s : State) (r : List Byte) : (s.taken r).rx = r := rfl
@[simp] theorem State.taken_rxEnded (s : State) (r : List Byte) : (s.taken r).rxEnded = s.rxEnded := rfl
@[simp] theorem State.taken_rxpos (s : State) (r : List Byte) : (s.taken r).rxpos = s.rxpos + 1 := rfl
@[simp] theorem State.taken_buf (s : State) (r : List Byte) : (s.taken r).buf = s.buf := rfl
@[simp] theorem State.taken_esc (s : State) (r : List Byte) : (s.taken r).esc = s.esc := rfl
@[simp] theorem State.taken_fault (s : State) (r : List Byte) : (s.taken r).fault = s.fault := rfl
@[simp] theorem State.taken_hostOut (s : State) (r : List Byte) : (s.taken r).hostOut = s.hostOut := rfl
@[simp] theorem State.taken_cond (s : State) (r : List Byte) : (s.taken r).cond = s.cond := rfl
@[simp] theorem State.taken_diag (s : State) (r : List Byte) : (s.taken r).diag = s.diag := rfl

theorem step_halted {s : State} {c : Condition} (h : s.fault = some c) : step s = .fault (.halted c) := by
  simp [step, h]

theorem step_idle {s : State} (h : s.fault = none) (hr : s.rx = []) : step s = .next s := by
  simp [step, h, rxNext_nil hr]

theorem step_feed {s : State} {b : Byte} {rest : List Byte} (h : s.fault = none) (hr : s.rx = b :: rest) :
    step s = feed b (s.taken rest) := by
  simp [step, h, rxNext_cons hr, State.taken]

/-- What a feed can do, in the terms of the shared operations: set the flag, append, overflow, or end a frame with one
of the outcomes of a dispatch. -/
inductive FeedResult (b : Byte) (s t : State) : Prop where
  | esc (hb : b = wireESC) (ht : t = s.setEsc)
  | append (hb : byteClass b = .data) (hroom : s.cfg.bufCap ≠ some s.buf.length)
      (ht : t = (s.appendBuf (unescape s.esc b)).clearEsc)
  | overflow (hb : byteClass b = .data) (hfull : s.cfg.bufCap = some s.buf.length)
      (ht : t = raise (.bufOverflow b) s)
  | discard (hb : b = wireEND) (hf : (strip0 s.buf).length ≤ 1)
      (ht : t = s.clearBuf.clearEsc.appendDiag (.frameReceived (strip0 s.buf)))
  | print (hb : b = wireEND) (p : List Byte) (hp : p ≠ []) (hf : strip0 s.buf = 0x0A#8 :: p) (htext : IsUtf8Text p)
      (ht : t = (s.clearBuf.clearEsc.appendDiag (.frameReceived (strip0 s.buf))).appendHostOut p)
  | malformed (hb : b = wireEND) (text : List Byte) (v : Byte) (rest : List Byte)
      (hf : strip0 s.buf = 0x0A#8 :: (text ++ v :: rest)) (htext : IsUtf8Text text)
      (hno : ∀ n, ¬ IsUtf8Sequence ((v :: rest).take n))
      (ht : t = raise (.malformedText text.length v)
        (s.clearBuf.clearEsc.appendDiag (.frameReceived (strip0 s.buf))))
  | condition (hb : b = wireEND) (tag : Byte) (p : List Byte) (hp : p ≠ []) (hf : strip0 s.buf = tag :: p)
      (htag : tagClass tag ≠ .debug)
      (ht : t = raise (tagCondition tag) (s.clearBuf.clearEsc.appendDiag (.frameReceived (strip0 s.buf))))

/-- Feeding a byte always completes (40_decoder.md R56, 70_reset_and_hazards.md R134), with one of these results. -/
theorem feed_result (b : Byte) (s : State) : ∃ t, feed b s = .next t ∧ FeedResult b s t := by
  by_cases h1 : b = wireESC
  · exact ⟨_, by rw [h1]; rfl, .esc h1 rfl⟩
  by_cases h2 : b = wireEND
  · subst h2
    rw [feed_END]
    rcases dispatch_cases (strip0 s.buf) s.clearBuf.clearEsc with
      ⟨hf, he⟩ | ⟨p, hp, hf, ht, he⟩ | ⟨t, v, rest, hf, ht, hno, he⟩ | ⟨tag, p, hp, hf, hc, he⟩
    · exact ⟨_, he, .discard rfl hf rfl⟩
    · exact ⟨_, he, .print rfl p hp hf ht rfl⟩
    · exact ⟨_, he, .malformed rfl t v rest hf ht hno rfl⟩
    · exact ⟨_, he, .condition rfl tag p hp hf hc rfl⟩
  · have hb := (byteClass_data_iff b).2 ⟨h1, h2⟩
    rw [feed_data h1 h2, feedData_eq]
    by_cases hf : s.cfg.bufCap = some s.buf.length
    · exact ⟨_, by rw [if_pos hf], .overflow hb hf rfl⟩
    · exact ⟨_, by rw [if_neg hf], .append hb hf rfl⟩

theorem feed_inv {b : Byte} {s t : State} (h : feed b s = .next t) : FeedResult b s t := by
  obtain ⟨t', ht', hr⟩ := feed_result b s
  rw [h] at ht'
  cases ht'
  exact hr

/-- A feed leaves RX, the position and the parameters alone. -/
theorem FeedResult.untouched {b : Byte} {s t : State} (h : FeedResult b s t) :
    t.cfg = s.cfg ∧ t.rx = s.rx ∧ t.rxEnded = s.rxEnded ∧ t.rxpos = s.rxpos := by
  cases h <;> subst t <;> simp

/-- Every feed of `END` clears the Decoder (10_state.md R15). -/
theorem FeedResult.cleared {s t : State} (h : FeedResult wireEND s t) : t.buf = [] ∧ t.esc = false := by
  cases h with
  | esc hb _ => exact absurd hb (by decide)
  | append hb => exact absurd hb (by decide)
  | overflow hb => exact absurd hb (by decide)
  | _ => subst t; simp

/-- A step is idle, or takes the head byte and feeds it. -/
theorem step_inv {s t : State} (h : step s = .next t) : s.fault = none ∧
    ((s.rx = [] ∧ t = s) ∨ ∃ b rest, s.rx = b :: rest ∧ FeedResult b (s.taken rest) t) := by
  cases hf : s.fault with
  | some c => rw [step_halted hf] at h; cases h
  | none =>
    refine ⟨rfl, ?_⟩
    cases hr : s.rx with
    | nil => rw [step_idle hf hr] at h; cases h; exact .inl ⟨rfl, rfl⟩
    | cons b rest => rw [step_feed hf hr] at h; exact .inr ⟨b, rest, rfl, feed_inv h⟩

end Sys2Proof.Machine
end

