-- ==== Sys2Proof/Laws/Run.lean ====
section
/-! SUPPORT. Runs: `advance` and `emission` by case, and that what is delivered later does not change what a step with
a byte at hand does. -/

namespace Sys2Proof.Machine

theorem advance_halted {s : State} {c : Condition} (h : s.fault = some c) : advance s = s := by
  simp [advance, step_halted h]

theorem advance_idle {s : State} (h : s.fault = none) (hr : s.rx = []) : advance s = s := by
  simp [advance, step_idle h hr]

theorem advance_feed {s t : State} {b : Byte} {rest : List Byte} (h : s.fault = none) (hr : s.rx = b :: rest)
    (ht : feed b (s.taken rest) = .next t) : advance s = t := by
  simp [advance, step_feed h hr, ht]

theorem run_add (m n : Nat) (s : State) : run (m + n) s = run n (run m s) := by
  induction m generalizing s with
  | zero => rw [Nat.zero_add]; rfl
  | succ m ih => rw [Nat.succ_add]; exact ih (advance s)

theorem run_halted {s : State} {c : Condition} (h : s.fault = some c) (n : Nat) : run n s = s := by
  induction n with
  | zero => rfl
  | succ n ih => rw [run, advance_halted h, ih]

theorem emissions_add (m n : Nat) (s : State) :
    emissions (m + n) s = emissions m s ++ emissions n (run m s) := by
  induction m generalizing s with
  | zero => rw [Nat.zero_add]; rfl
  | succ m ih => rw [Nat.succ_add, emissions, emissions, ih, List.append_assoc]; rfl

theorem emission_halted {s : State} {c : Condition} (h : s.fault = some c) : emission s = none := by
  simp [emission, h]

theorem emissions_halted {s : State} {c : Condition} (h : s.fault = some c) (n : Nat) : emissions n s = [] := by
  induction n with
  | zero => rfl
  | succ n ih => rw [emissions, advance_halted h, ih, emission_halted h]; rfl

theorem emission_feed {s : State} {b : Byte} {rest : List Byte} (h : s.fault = none) (hr : s.rx = b :: rest) :
    emission s = if b = wireEND then some (strip0 s.buf) else none := by
  simp [emission, h, hr]

/-! ## Later deliveries -/

@[simp] theorem State.deliver_nil (s : State) : s.deliver [] = s := by simp [State.deliver]

theorem State.deliver_deliver (s : State) (c d : List Byte) : (s.deliver c).deliver d = s.deliver (c ++ d) := by
  simp [State.deliver]

theorem raise_deliver (c : Condition) (s : State) (d : List Byte) :
    raise c (s.deliver d) = (raise c s).deliver d := by
  rw [raise_eq, raise_eq]; rfl

theorem dispatch_deliver {f : List Byte} {s t : State} (h : dispatch f s = .next t) (d : List Byte) :
    dispatch f (s.deliver d) = .next (t.deliver d) := by
  match f, h with
  | [], h => cases h; rfl
  | [_], h => cases h; rfl
  | tag :: q :: qs, h =>
    simp only [dispatch] at h ⊢
    by_cases hc : tagClass tag = .debug
    · obtain rfl := tagClass_debug hc
      rw [route_debug, execDebug] at h ⊢
      cases hk : utf8Check (q :: qs) <;> rw [hk] at h <;> cases h
      · rfl
      · exact congrArg Host.Outcome.next (raise_deliver _ (s.appendDiag _) d)
    · rw [route_not_debug hc] at h ⊢
      cases h
      exact congrArg Host.Outcome.next (raise_deliver _ (s.appendDiag _) d)

theorem State.deliver_taken (s : State) (hr : s.rx = []) (b : Byte) (bs : List Byte) :
    (s.deliver (b :: bs)).taken bs = (s.taken []).deliver bs := by
  simp [State.taken, State.deliver, hr]

theorem feed_deliver {b : Byte} {s t : State} (h : feed b s = .next t) (d : List Byte) :
    feed b (s.deliver d) = .next (t.deliver d) := by
  by_cases h1 : b = wireESC
  · subst h1; cases h; rfl
  by_cases h2 : b = wireEND
  · subst h2; exact dispatch_deliver h d
  · rw [feed_data h1 h2, feedData_eq] at h ⊢
    cases h
    by_cases hf : s.cfg.bufCap = some s.buf.length
    · simp only [State.deliver_cfg, State.deliver_buf, hf, if_true]
      exact congrArg _ (raise_deliver _ _ d)
    · simp only [State.deliver_cfg, State.deliver_buf, hf, if_false]
      rfl

/-- A step with a byte at hand, or of a halted block, does not see what is delivered behind. -/
theorem advance_deliver {s : State} (h : s.fault ≠ none ∨ s.rx ≠ []) (d : List Byte) :
    advance (s.deliver d) = (advance s).deliver d ∧ emission (s.deliver d) = emission s := by
  cases hf : s.fault with
  | some c =>
    rw [advance_halted (s := s.deliver d) hf, advance_halted hf, emission_halted hf,
      emission_halted (s := s.deliver d) hf]
    exact ⟨rfl, rfl⟩
  | none =>
    obtain ⟨b, rest, hr⟩ := List.exists_cons_of_ne_nil (h.resolve_left (by simp [hf]))
    obtain ⟨t, ht, -⟩ := feed_result b (s.taken rest)
    have hrd : (s.deliver d).rx = b :: (rest ++ d) := by simp [hr]
    rw [advance_feed hf hr ht, emission_feed hf hr, emission_feed (s := s.deliver d) hf hrd]
    exact ⟨advance_feed hf hrd (feed_deliver ht d), rfl⟩

/-- As many steps as RX has bytes do not see what is delivered behind. -/
theorem run_deliver (n : Nat) (s : State) (h : n ≤ s.rx.length) (d : List Byte) :
    run n (s.deliver d) = (run n s).deliver d ∧ emissions n (s.deliver d) = emissions n s := by
  induction n generalizing s with
  | zero => exact ⟨rfl, rfl⟩
  | succ n ih =>
    cases hf : s.fault with
    | some c =>
      rw [run_halted hf, emissions_halted hf, run_halted (s := s.deliver d) hf, emissions_halted (s := s.deliver d) hf]
      exact ⟨rfl, rfl⟩
    | none =>
      have hne : s.rx ≠ [] := by intro h0; simp [h0] at h
      obtain ⟨ha, he⟩ := advance_deliver (.inr hne) d
      have hlen : n ≤ (advance s).rx.length := by
        obtain ⟨b, rest, hr⟩ := List.exists_cons_of_ne_nil hne
        obtain ⟨t, ht, hres⟩ := feed_result b (s.taken rest)
        rw [advance_feed hf hr ht, hres.untouched.2.1]
        simpa [hr] using h
      obtain ⟨h1, h2⟩ := ih (advance s) hlen
      exact ⟨by rw [run, ha, h1, run], by rw [emissions, ha, he, h2, emissions]⟩

/-- Processing a chunk in two pieces (40_decoder.md R55). -/
theorem process_append (a b : List Byte) (s : State) :
    process (a ++ b) s = process b (process a s) ∧
      emissionsOf (a ++ b) s = emissionsOf a s ++ emissionsOf b (process a s) := by
  have hle : a.length ≤ (s.deliver a).rx.length := by simp
  obtain ⟨h1, h2⟩ := run_deliver a.length (s.deliver a) hle b
  rw [State.deliver_deliver] at h1 h2
  constructor
  · rw [process, List.length_append, run_add, h1]; rfl
  · rw [emissionsOf, List.length_append, emissions_add, h1, h2]; rfl

/-! ## Processing one byte more -/

theorem State.waiting.taken {s : State} (h : s.waiting) : (s.taken []).waiting := ⟨h.1, rfl⟩

theorem process_nil (s : State) : process [] s = s := by simp [process, run]

/-- A waiting block processes a chunk by feeding its first byte and processing the others. -/
theorem process_cons {s t : State} (hw : s.waiting) {b : Byte} (h : feed b (s.taken []) = .next t) (bs : List Byte) :
    process (b :: bs) s = process bs t ∧
      emissionsOf (b :: bs) s = (if b = wireEND then [strip0 s.buf] else []) ++ emissionsOf bs t := by
  have hr : (s.deliver (b :: bs)).rx = b :: bs := by simp [hw.2]
  have ha := advance_feed (s := s.deliver (b :: bs)) hw.1 hr
    (by rw [s.deliver_taken hw.2]; exact feed_deliver h bs)
  refine ⟨by simp only [process, List.length_cons, run, ha], ?_⟩
  simp only [emissionsOf, List.length_cons, emissions, ha]
  rw [emission_feed (s := s.deliver (b :: bs)) hw.1 hr]
  split <;> rfl

theorem process_ESC {s : State} (hw : s.waiting) (bs : List Byte) :
    process (wireESC :: bs) s = process bs (s.taken []).setEsc ∧
      emissionsOf (wireESC :: bs) s = emissionsOf bs (s.taken []).setEsc :=
  process_cons hw (feed_ESC _) bs

theorem process_data {s : State} (hw : s.waiting) {b : Byte} (hb : byteClass b = .data)
    (hroom : s.cfg.bufCap ≠ some s.buf.length) (bs : List Byte) :
    process (b :: bs) s = process bs ((s.taken []).appendBuf (unescape s.esc b)).clearEsc ∧
      emissionsOf (b :: bs) s = emissionsOf bs ((s.taken []).appendBuf (unescape s.esc b)).clearEsc := by
  obtain ⟨h1, h2⟩ := (byteClass_data_iff b).1 hb
  have h := process_cons hw ((feed_data h1 h2 _).trans (feedData_eq b (s.taken []))) bs
  rwa [if_neg (by simpa using hroom), if_neg h2] at h

theorem process_END {s : State} (hw : s.waiting) (bs : List Byte) :
    ∃ t, feed wireEND (s.taken []) = .next t ∧
      process (wireEND :: bs) s = process bs t ∧ emissionsOf (wireEND :: bs) s = strip0 s.buf :: emissionsOf bs t := by
  obtain ⟨t, ht, -⟩ := feed_result wireEND (s.taken [])
  exact ⟨t, ht, process_cons hw ht bs⟩

end Sys2Proof.Machine
end

