-- ==== Sys2Proof/Tests/Slice0.lean ====
section
/-! SUPPORT. Tests: ill-formed terms refused, words written out from the encoding tables, one step per instruction from
the vectors of 95_test_vectors.md, and for each statement with hypotheses a state and operands that meet them. -/

namespace Sys2Proof.Tests

open Sys2Proof.Machine

/-- A block with the given parameters, RX, buffer and flag, everything else as after reset. -/
def block (cap : Option Nat) (fatal : Bool) (rx buf : List Byte) (esc : Bool) : State :=
  { State.resetWith { bufCap := cap, unimplFatal := fatal } with rx := rx, buf := buf, esc := esc }

/-- The next state, if there is one. -/
def nextOf (o : Host.Outcome State Fault Refusal) : Option State :=
  match o with
  | .next t => some t
  | .fault _ => none
  | .refused _ => none

/-! ## Ill-formed terms are refused -/

theorem test_wf_data_END : (Instr.data 0xC0#8).wellFormed = false := by decide
theorem test_wf_data_ESC : (Instr.data 0xDB#8).wellFormed = false := by decide
theorem test_wf_data_ESC_END : (Instr.data 0xDC#8).wellFormed = false := by decide
theorem test_wf_data_ESC_ESC : (Instr.data 0xDD#8).wellFormed = false := by decide
theorem test_wf_data_PAD : (Instr.data 0x00#8).wellFormed = false := by decide
theorem test_wf_payload : (Instr.debug []).wellFormed = false ∧ (Instr.coap []).wellFormed = false ∧
    (Instr.ipv4At45 []).wellFormed = false ∧ (Instr.ipv4At46 0 []).wellFormed = false ∧
    (Instr.ipv4At48 0 []).wellFormed = false ∧ (Instr.ipv6 0 []).wellFormed = false ∧
    (Instr.unknown 0x44#8 []).wellFormed = false := by decide
theorem test_wf_unknown_tag : (Instr.unknown 0x0A#8 [0x41#8]).wellFormed = false ∧
    (Instr.unknown 0x45#8 [0x41#8]).wellFormed = false ∧ (Instr.unknown 0x4F#8 [0x41#8]).wellFormed = false ∧
    (Instr.unknown 0x60#8 [0x41#8]).wellFormed = false ∧ (Instr.unknown 0x6F#8 [0x41#8]).wellFormed = false ∧
    (Instr.unknown 0xA9#8 [0x41#8]).wellFormed = false := by decide

/-! ## Words written out bit by bit (opcode_table.json match and mask; boundary values of 30_encoding.md R42) -/

theorem test_decode_END : decodeByte 0b11000000#8 = .frameEnd := by decide
theorem test_decode_ESC : decodeByte 0b11011011#8 = .esc := by decide
theorem test_decode_ESC_END : decodeByte 0b11011100#8 = .escEnd := by decide
theorem test_decode_ESC_ESC : decodeByte 0b11011101#8 = .escEsc := by decide
theorem test_decode_PAD : decodeByte 0b00000000#8 = .pad := by decide
theorem test_decode_DATA : decodeByte 0b11000001#8 = .data 0xC1#8 ∧ decodeByte 0b11011110#8 = .data 0xDE#8 := by decide
theorem test_decode_DEBUG : decodeTag 0b00001010#8 [0x41#8] = .debug [0x41#8] := by decide
theorem test_decode_COAP : decodeTag 0b10101001#8 [0x41#8] = .coap [0x41#8] := by decide
theorem test_decode_IPV4_45 : decodeTag 0b01000101#8 [0x41#8] = .ipv4At45 [0x41#8] := by decide
theorem test_decode_IPV4_46_47 : decodeTag 0b01000110#8 [0x41#8] = .ipv4At46 0 [0x41#8] ∧
    decodeTag 0b01000111#8 [0x41#8] = .ipv4At46 1 [0x41#8] := by decide
theorem test_decode_IPV4_48_4F : decodeTag 0b01001000#8 [0x41#8] = .ipv4At48 0 [0x41#8] ∧
    decodeTag 0b01001111#8 [0x41#8] = .ipv4At48 7 [0x41#8] := by decide
theorem test_decode_IPV6 : decodeTag 0b01100000#8 [0x41#8] = .ipv6 0 [0x41#8] ∧
    decodeTag 0b01101111#8 [0x41#8] = .ipv6 15 [0x41#8] := by decide
theorem test_decode_UNKNOWN : decodeTag 0b01000100#8 [0x41#8] = .unknown 0x44#8 [0x41#8] ∧
    decodeTag 0b01010000#8 [0x41#8] = .unknown 0x50#8 [0x41#8] ∧
    decodeTag 0b01011111#8 [0x41#8] = .unknown 0x5F#8 [0x41#8] ∧
    decodeTag 0b01110000#8 [0x41#8] = .unknown 0x70#8 [0x41#8] := by decide
theorem test_decode_short : decode .tag [] = .error .emptySequence ∧
    decode .tag [0x45#8] = .error (.loneTag 0x45#8) ∧ decode .rxbyte [] = .error .noByte := ⟨rfl, rfl, rfl⟩
/-- Every row of the table has a word of its own at the host's interface (log entry 6). -/
theorem test_table_words :
    [0xC0, 0xDB, 0xDC, 0xDD, 0x00, 0x40].map (decodeTableWord 8) =
      [some .frameEnd, some .esc, some .escEnd, some .escEsc, some .pad, some (.data 0x40#8)] ∧
    [0x0A, 0xA9, 0x45, 0x46, 0x48, 0x60, 0x80].map (decodeTableWord 8) =
      [some (.debug [0]), some (.coap [0]), some (.ipv4At45 [0]), some (.ipv4At46 0 [0]), some (.ipv4At48 0 [0]),
        some (.ipv6 0 [0]), some (.unknown 0x80#8 [0])] := by decide
/-- FRAME expansions of 30_encoding.md R47. -/
theorem test_frameBytes : frameBytes [0x0A#8, 0xC0#8] = [0x0A#8, 0xDB#8, 0xDC#8, 0xC0#8] ∧
    frameBytes [0x0A#8, 0xDB#8] = [0x0A#8, 0xDB#8, 0xDD#8, 0xC0#8] ∧ frameBytes [] = [0xC0#8] := by decide

/-! ## One step per RXBYTE row (vectors S1, T30 to T39, T50) -/

/-- T31. -/
theorem test_step_ESC : (nextOf (step (block none true [0xDB#8] [0x0A#8] true))).map (fun t => (t.buf, t.esc)) =
    some ([0x0A#8], true) := by decide
/-- S1, last step. -/
theorem test_step_END : (nextOf (step (block none true [0xC0#8] [0x00#8, 0x00#8, 0x0A#8, 0x68#8, 0x69#8] false))).map
    (fun t => (t.buf, t.hostOut, t.cond, t.diag)) =
    some ([], [0x68#8, 0x69#8], [], [.frameReceived [0x0A#8, 0x68#8, 0x69#8]]) := by decide
/-- T33: a pending escape is dropped. -/
theorem test_step_ESC_then_END : (nextOf (step (block none true [0xC0#8] [0x0A#8, 0x41#8] true))).map
    (fun t => (t.buf, t.esc, t.hostOut)) = some ([], false, [0x41#8]) := by decide
/-- T35. -/
theorem test_step_ESC_END : (nextOf (step (block none true [0xDC#8] [0x0A#8] true))).map (fun t => (t.buf, t.esc)) =
    some ([0x0A#8, 0xC0#8], false) := by decide
/-- T34. -/
theorem test_step_ESC_END_plain : (nextOf (step (block none true [0xDC#8] [0x0A#8] false))).map (·.buf) =
    some [0x0A#8, 0xDC#8] := by decide
/-- T37. -/
theorem test_step_ESC_ESC : (nextOf (step (block none true [0xDD#8] [0x0A#8] true))).map (fun t => (t.buf, t.esc)) =
    some ([0x0A#8, 0xDB#8], false) := by decide
/-- T36. -/
theorem test_step_ESC_ESC_plain : (nextOf (step (block none true [0xDD#8] [0x0A#8] false))).map (·.buf) =
    some [0x0A#8, 0xDD#8] := by decide
/-- T38. -/
theorem test_step_PAD : (nextOf (step (block none true [0x00#8] [] false))).map (·.buf) = some [0x00#8] := by decide
/-- T39. -/
theorem test_step_DATA : (nextOf (step (block none true [0x41#8] [0x0A#8] true))).map (fun t => (t.buf, t.esc, t.rxpos)) =
    some ([0x0A#8, 0x41#8], false, 1) := by decide
/-- T50, fourth step. -/
theorem test_step_DATA_overflow : (nextOf (step (block (some 3) true [0x43#8] [0x0A#8, 0x41#8, 0x42#8] false))).map
    (fun t => (t.buf, t.cond, t.fault)) =
    some ([0x0A#8, 0x41#8, 0x42#8], [.bufOverflow 0x43#8], some (.bufOverflow 0x43#8)) := by decide
/-- U8, U9: idle and halted. -/
theorem test_step_idle : nextOf (step (block none true [] [0x0A#8] true)) = some (block none true [] [0x0A#8] true) := by
  decide
theorem test_step_halted : step { block none true [0x41#8] [] false with fault := some (.unknownTag 0xFF#8) } =
    .fault (.halted (.unknownTag 0xFF#8)) := rfl

/-! ## One dispatch per TAG row (vectors T60 to T74, T80 to T91) -/

/-- The COND records and fault of the END step of a frame. -/
def reportOf (fatal : Bool) (f : List Byte) : Option (List Condition × Option Condition) :=
  (nextOf (step (block none fatal [0xC0#8] f false))).map fun t => (t.cond, t.fault)

/-- T87. -/
theorem test_DEBUG_malformed : reportOf true [0x0A#8, 0x6F#8, 0x6B#8, 0xE2#8, 0x82#8] =
    some ([.malformedText 2 0xE2#8], some (.malformedText 2 0xE2#8)) := by decide
/-- T85. -/
theorem test_DEBUG_two_bytes : (nextOf (step (block none true [0xC0#8] [0x0A#8, 0xC3#8, 0xA9#8] false))).map (·.hostOut) =
    some [0xC3#8, 0xA9#8] := by decide
/-- T61. -/
theorem test_IPV4_45 : reportOf true [0x45#8, 0x01#8] =
    some ([.unimplemented .ipv4 0x45#8], some (.unimplemented .ipv4 0x45#8)) := by decide
/-- T90 and T91, second frame. -/
theorem test_IPV4_46_47 : reportOf true [0x47#8, 0x01#8] =
    some ([.unimplemented .ipv4 0x47#8], some (.unimplemented .ipv4 0x47#8)) ∧
    reportOf false [0x47#8, 0x01#8] = some ([.unimplemented .ipv4 0x47#8], none) := by decide
/-- T62. -/
theorem test_IPV4_48_4F : reportOf true [0x4F#8, 0x01#8] =
    some ([.unimplemented .ipv4 0x4F#8], some (.unimplemented .ipv4 0x4F#8)) := by decide
/-- T65, T66. -/
theorem test_IPV6 : reportOf true [0x60#8, 0x01#8] =
    some ([.unimplemented .ipv6 0x60#8], some (.unimplemented .ipv6 0x60#8)) ∧
    reportOf true [0x6F#8, 0x01#8] =
      some ([.unimplemented .ipv6 0x6F#8], some (.unimplemented .ipv6 0x6F#8)) := by decide
/-- T71. -/
theorem test_COAP : reportOf true [0xA9#8, 0x01#8] =
    some ([.unimplemented .coap 0xA9#8], some (.unimplemented .coap 0xA9#8)) := by decide
/-- T72, and T82: the payload is not examined. -/
theorem test_UNKNOWN : reportOf false [0xAA#8, 0x01#8] = some ([.unknownTag 0xAA#8], some (.unknownTag 0xAA#8)) ∧
    reportOf true [0xFF#8, 0xFF#8, 0xFF#8] = some ([.unknownTag 0xFF#8], some (.unknownTag 0xFF#8)) := by decide
/-- T74, T80, T81: lone tags raise nothing. -/
theorem test_lone_tags : reportOf true [0x00#8, 0x01#8] = some ([], none) ∧ reportOf true [0x45#8] = some ([], none) ∧
    reportOf true [0xFF#8] = some ([], none) := by decide
/-- Codes of 60_exceptions.md R101. -/
theorem test_causes : (Condition.unimplemented .ipv4 0x45#8).cause = 1 ∧ (Condition.unimplemented .ipv6 0x60#8).cause = 2 ∧
    (Condition.unimplemented .coap 0xA9#8).cause = 3 ∧ (Condition.unknownTag 0xFF#8).cause = 4 ∧
    (Condition.malformedText 0 0xC0#8).cause = 5 ∧ (Condition.bufOverflow 0x43#8).cause = 6 := by decide

/-! ## The text check (the examples after 42_utf8_text.md R93) -/

theorem test_utf8_ok : [[0x68#8, 0x69#8], [0x00#8], [0xC3#8, 0xA9#8], [0xDB#8, 0x80#8], [0xE2#8, 0x82#8, 0xAC#8],
    [0xF0#8, 0x9F#8, 0x98#8, 0x80#8], [0xEF#8, 0xBB#8, 0xBF#8, 0x41#8]].all (fun p => utf8Check p == .ok) = true := by
  decide
theorem test_utf8_bad_at_0 : [[0xFF#8], [0xC0#8, 0x80#8], [0xC3#8], [0xE0#8, 0x80#8, 0x80#8], [0xED#8, 0xA0#8, 0x80#8],
    [0xF4#8, 0x90#8, 0x80#8, 0x80#8], [0xF5#8, 0x80#8, 0x80#8, 0x80#8]].all (fun p => utf8Check p == .bad 0) = true := by
  decide
theorem test_utf8_bad_later : utf8Check [0x41#8, 0x80#8] = .bad 1 ∧ utf8Check [0x41#8, 0xC3#8, 0x28#8] = .bad 1 := by
  decide

/-! ## Witnesses: each statement with hypotheses has a case, each clause one at a boundary -/

theorem text_ok : IsUtf8Text [0xF4#8, 0x8F#8, 0xBF#8, 0xBF#8, 0x41#8] :=
  ⟨[[0xF4#8, 0x8F#8, 0xBF#8, 0xBF#8], [0x41#8]], rfl, by
    intro q hq
    rcases List.mem_cons.1 hq with rfl | hq
    · exact ⟨.inr (.inr (by decide)), by decide, by decide⟩
    · obtain rfl := List.mem_singleton.1 hq
      show (0x41#8 : Byte) ≤ 0x7F#8
      decide⟩
theorem text_bad : ¬ IsUtf8Text [0x41#8, 0xC0#8] := fun h => by
  have := utf8Scan_text h 0 0 0 []
  revert this; decide

theorem witness_DataRowsAppendOneByte : (block (some 3) true [] [1#8, 2#8] true).cfg.bufCap ≠ some 2 ∧
    (Instr.data 0x01#8).wellFormed = true ∧ (Instr.data 0xC1#8).wellFormed = true ∧
    (Instr.data 0xFF#8).wellFormed = true := by decide
theorem witness_FullBufferOverflowsWithoutAppending : (block (some 2) true [] [1#8, 2#8] true).cfg.bufCap =
    some (block (some 2) true [] [1#8, 2#8] true).buf.length ∧ (Instr.data 0xDA#8).wellFormed = true := by decide
theorem witness_waiting_room : (block (some 3) true [] [1#8] false).waiting ∧
    (block (some 3) true [] [1#8] false).esc = false ∧ (block (some 3) true [] [1#8] false).room 2 :=
  ⟨⟨rfl, rfl⟩, rfl, fun cap h => by cases h; decide⟩
theorem witness_EscapeSequencesUnstuff : (block (some 3) true [] [1#8, 2#8] false).waiting ∧
    (block (some 3) true [] [1#8, 2#8] false).room 1 ∧
    byteClass 0x00#8 = .data ∧ byteClass 0xC1#8 = .data ∧ byteClass 0xDA#8 = .data ∧ byteClass 0xFF#8 = .data :=
  ⟨⟨rfl, rfl⟩, fun cap h => by cases h; decide, by decide⟩
theorem witness_EscapeReachesOneByteOnly : (block (some 2) true [] [] false).betweenFrames ∧
    (block (some 2) true [] [] false).room 2 ∧ byteClass 0xDC#8 = .data ∧
    (process [0xDB#8, 0xC0#8] (block (some 2) true [] [] false)).fault = none :=
  ⟨⟨⟨rfl, rfl⟩, rfl, rfl⟩, fun cap h => by cases h; decide, by decide, by decide⟩
theorem witness_RepeatedEscEqualsOneEsc : (block none true [] [1#8] false).waiting := ⟨rfl, rfl⟩
theorem witness_ByteRowsFollowTheClasses : (0xDA#8 : Byte) ≠ 0xDB#8 ∧ (0xDA#8 : Byte) ≠ 0xC0#8 := by decide
theorem witness_TagRowsFollowTheClasses : ((0x45#8 : Byte) ≤ 0x45#8 ∧ (0x4F#8 : Byte) ≤ 0x4F#8) ∧
    ((0x60#8 : Byte) ≤ 0x60#8 ∧ (0x6F#8 : Byte) ≤ 0x6F#8) ∧
    (¬ ((0x45#8 : Byte) ≤ 0x44#8 ∧ (0x44#8 : Byte) ≤ 0x4F#8) ∧ ¬ ((0x60#8 : Byte) ≤ 0x44#8 ∧ (0x44#8 : Byte) ≤ 0x6F#8) ∧
      (0x44#8 : Byte) ≠ 0x0A#8 ∧ (0x44#8 : Byte) ≠ 0xA9#8) := by decide
theorem witness_DecodeOfEncodeIsTheInstruction : (Instr.data 0xFF#8).wellFormed = true ∧
    (Instr.data 0xFF#8).format = .rxbyte ∧ (Instr.ipv6 15 [0x41#8]).wellFormed = true ∧
    (Instr.ipv6 15 [0x41#8]).format = .tag ∧ (Instr.unknown 0xFF#8 [0x41#8]).wellFormed = true := by decide
theorem witness_EncodeOfDecodeIsTheBytes : decode .rxbyte [0x41#8, 0x42#8] = .ok (.data 0x41#8, [0x42#8]) ∧
    decode .tag [0xA9#8, 0x42#8] = .ok (.coap [0x42#8], []) := ⟨rfl, rfl⟩
theorem witness_ShortSequencesAreDiscarded : ([] : List Byte).length ≤ 1 ∧ [(0x45#8 : Byte)].length ≤ 1 := by decide
theorem witness_ActionableFrameRunsItsHandler : [(0x00#8 : Byte)] ≠ [] := by decide
theorem witness_DebugWritesTextVerbatim : IsUtf8Text [0xF4#8, 0x8F#8, 0xBF#8, 0xBF#8, 0x41#8] := text_ok
theorem witness_DebugReportsMalformedText : ¬ IsUtf8Text [0x41#8, 0xC0#8] := text_bad
/-- A block that consumes the END of the frame in `buf`, behind one byte of padding. -/
def ending (f : List Byte) : State := block none false [0xC0#8, 0x41#8] (0x00#8 :: f) true
theorem witness_EndStepFollowsTheOutcomeTable_reached : (ending [0x45#8, 0x00#8]).fault = none ∧
    (ending [0x45#8, 0x00#8]).rx = 0xC0#8 :: [0x41#8] ∧
    strip0 (ending [0x45#8, 0x00#8]).buf = 0x45#8 :: [0x00#8] ∧ [(0x00#8 : Byte)] ≠ [] ∧
    (0x45#8 : Byte) ≤ 0x45#8 ∧ (0x45#8 : Byte) ≤ 0x4F#8 := by decide
theorem witness_EndStepFollowsTheOutcomeTable_text : strip0 (ending [0x0A#8, 0xF4#8, 0x8F#8, 0xBF#8, 0xBF#8, 0x41#8]).buf =
    0x0A#8 :: [0xF4#8, 0x8F#8, 0xBF#8, 0xBF#8, 0x41#8] ∧ IsUtf8Text [0xF4#8, 0x8F#8, 0xBF#8, 0xBF#8, 0x41#8] :=
  ⟨by decide, text_ok⟩
theorem witness_EndStepFollowsTheOutcomeTable_malformed : strip0 (ending [0x0A#8, 0x41#8, 0xC0#8]).buf =
    0x0A#8 :: [0x41#8, 0xC0#8] ∧ ¬ IsUtf8Text [0x41#8, 0xC0#8] := ⟨by decide, text_bad⟩
theorem witness_EndStepFollowsTheOutcomeTable_others : strip0 (ending [0x4F#8, 0x01#8]).buf = 0x4F#8 :: [0x01#8] ∧
    strip0 (ending [0x60#8, 0x01#8]).buf = 0x60#8 :: [0x01#8] ∧ strip0 (ending [0x6F#8, 0x01#8]).buf = 0x6F#8 :: [0x01#8] ∧
    strip0 (ending [0xA9#8, 0x01#8]).buf = 0xA9#8 :: [0x01#8] ∧ strip0 (ending [0x70#8, 0x01#8]).buf = 0x70#8 :: [0x01#8] ∧
    tagClass 0x70#8 = .unknown ∧ tagClass 0x5F#8 = .unknown := by decide
theorem witness_AsciiPassesAndByteC0Fails : (∀ b ∈ [(0x00#8 : Byte), 0x7F#8], b < 0x80#8) ∧
    (0xC0#8 : Byte) ∈ [(0x41#8 : Byte), 0xC0#8] := by decide
theorem witness_StepRunsTheDecodedInstruction : (block none true [0xC0#8, 1#8] [] false).fault = none ∧
    (block none true [0xC0#8, 1#8] [] false).rx = 0xC0#8 :: [1#8] := by decide
theorem witness_EnabledStepFinishes : (block none true [0xC0#8] [] false).enabled := ⟨rfl, by decide⟩
theorem witness_IdleBlockKeepsItsState : (block none true [] [0x0A#8] true).waiting := ⟨rfl, rfl⟩
theorem witness_HaltedBlockIgnoresTheStream :
    { block none true [1#8] [] false with fault := some (.unknownTag 0xFF#8) }.fault = some (.unknownTag 0xFF#8) := rfl
/-- A next state, with each of the three changes of the buffer. -/
theorem witness_BufferChangesInTwoWaysOnly :
    (∃ t, step (block (some 1) true [0xDB#8] [1#8] false) = .next t ∧ t.buf = [1#8]) ∧
    (∃ t, step (block (some 2) true [0x41#8] [1#8] false) = .next t ∧ t.buf = [1#8, 0x41#8]) ∧
    (∃ t, step (block (some 1) true [0xC0#8] [1#8] false) = .next t ∧ t.buf = []) :=
  ⟨⟨_, rfl, rfl⟩, ⟨_, rfl, rfl⟩, ⟨_, rfl, rfl⟩⟩
/-- Each clause: ESC, another byte, an overflow, and a byte that is not data. -/
theorem witness_EscFlagTellsTheLastByte :
    (∃ t, step (block none true [0xDB#8] [] false) = .next t ∧ t.esc = true) ∧
    (∃ t, step (block none true [0x41#8] [] true) = .next t ∧ t.fault = none ∧ t.esc = false) ∧
    (∃ t, step (block (some 0) true [0x41#8] [] true) = .next t ∧ t.fault = some (.bufOverflow 0x41#8) ∧ t.esc = true) ∧
    byteClass 0xC0#8 ≠ .data :=
  ⟨⟨_, rfl, rfl⟩, ⟨_, rfl, rfl, rfl⟩, ⟨_, rfl, rfl, rfl⟩, by decide⟩
/-- A step that raises nothing, one that raises a fatal condition, one that raises one that is not. -/
theorem witness_StepRaisesAtMostOneCondition :
    (∃ t, step (block none true [0x41#8] [] false) = .next t ∧ t.cond = []) ∧
    (∃ t, step (block none true [0xC0#8] [0xFF#8, 1#8] false) = .next t ∧ t.cond = [.unknownTag 0xFF#8] ∧
      t.fault = some (.unknownTag 0xFF#8)) ∧
    (∃ t, step (block none false [0xC0#8] [0xA9#8, 1#8] false) = .next t ∧ t.cond = [.unimplemented .coap 0xA9#8] ∧
      t.fault = none) :=
  ⟨⟨_, rfl, rfl⟩, ⟨_, rfl, rfl, rfl⟩, ⟨_, rfl, rfl, rfl⟩⟩
theorem witness_OnlyDebugFramesWriteHostOut :
    ∃ t, step (block none true [0xC0#8] [0x0A#8, 0x41#8] false) = .next t ∧ t.hostOut = [0x41#8] := ⟨_, rfl, rfl⟩
theorem witness_OutputStreamsAreNeverReadBack :
    ∃ t, step (block none true [0xC0#8] [0x0A#8, 0x41#8] false) = .next t := ⟨_, rfl⟩
theorem witness_PlacedTableWordRunsNext : State.reset.fault = none ∧ 0x45 < 256 ∧
    (decodeTableByte 0x45#8).format = .tag ∧ (decodeTableByte 0xC0#8).format = .rxbyte := by decide
theorem witness_ResetLeavesTheStatedValues :
    { block none true [0x41#8] [] false with fault := some (.unknownTag 0xFF#8) }.rx ≠ [] := by decide
/-- A state with text on HOST_OUT, a full buffer and a record on COND meets the invariant and steps. -/
def busy : State := { block (some 2) false [0xC0#8] [0xA9#8, 1#8] true with
  hostOut := [0x41#8], cond := [.unimplemented .ipv4 0x45#8] }
theorem witness_EveryStepKeepsTheInvariant : busy.Inv ∧
    ∃ t, step busy = .next t ∧ t.cond = [.unimplemented .ipv4 0x45#8, .unimplemented .coap 0xA9#8] :=
  ⟨{ bufferFits := fun n h => by cases h; decide
     condsFit := fun c h => by
       obtain rfl := List.mem_singleton.1 h
       show tagClass 0x45#8 = .ipv4
       decide
     faultReported := fun c h => by cases h
     faultLeaves := fun c h => by cases h
     textOut := ⟨[[0x41#8]], rfl, fun q hq => by
       obtain rfl := List.mem_singleton.1 hq
       show (0x41#8 : Byte) ≤ 0x7F#8
       decide⟩ }, _, rfl, by decide⟩
theorem witness_EnvironmentKeepsTheInvariant : busy.Inv := witness_EveryStepKeepsTheInvariant.1
/-- A waiting block whose first byte is fatal, and one whose first byte is not. -/
theorem witness_ProcessFoldsFeed : (block (some 0) true [] [] false).waiting ∧
    (∃ t, feed 0x41#8 (block (some 0) true [] [] false) = .next t ∧ t.fault ≠ none) ∧
    (∃ t, feed 0x41#8 (block none true [] [] false) = .next t ∧ t.fault = none) :=
  ⟨⟨rfl, rfl⟩, ⟨_, rfl, by decide⟩, ⟨_, rfl, rfl⟩⟩
theorem witness_StuffedFrameRoundTrip : (block (some 3) true [] [0x00#8] false).waiting ∧
    (block (some 3) true [] [0x00#8] false).buf = List.replicate 1 0x00#8 ∧
    (block (some 3) true [] [0x00#8] false).room [(0xC0#8 : Byte), 0xDB#8].length :=
  ⟨⟨rfl, rfl⟩, rfl, fun cap h => by cases h; decide⟩
theorem witness_DebugFrameIsPrintedAndNothingElse : (block (some 6) true [] [] false).betweenFrames ∧
    (block (some 6) true [] [] false).room ([0xF4#8, 0x8F#8, 0xBF#8, 0xBF#8, (0x41#8 : Byte)].length + 1) ∧
    IsUtf8Text [0xF4#8, 0x8F#8, 0xBF#8, 0xBF#8, 0x41#8] :=
  ⟨⟨⟨rfl, rfl⟩, rfl, rfl⟩, fun cap h => by cases h; decide, text_ok⟩
theorem witness_NothingLeavesBeforeTheEnd : (block none true [] [] false).waiting ∧
    (0xC0#8 : Byte) ∉ [(0x0A#8 : Byte), 0xDB#8] ∧ (block none true [] [] false).cfg.bufCap = none :=
  ⟨⟨rfl, rfl⟩, by decide, rfl⟩
theorem witness_BufferCountsTheDataBytes : (block (some 1) true [] [] false).waiting ∧
    (0xC0#8 : Byte) ∉ [(0x0A#8 : Byte), 0xDB#8] ∧
    (process [0x0A#8, 0xDB#8] (block (some 1) true [] [] false)).fault = none :=
  ⟨⟨rfl, rfl⟩, by decide, by decide⟩
theorem witness_DoubledEndIsHarmless : (block none true [] [] false).betweenFrames := ⟨⟨rfl, rfl⟩, rfl, rfl⟩

end Sys2Proof.Tests
end

section
/-! The Decoder state (10_state.md R11, R12, R15): what a feed does to the buffer and to the flag, and from it what
every step does. -/

namespace Sys2Proof.Machine

/-! ## The buffer -/

/-- A feed keeps the buffer, appends one byte for a data byte that finds room, or clears it for `END`. -/
theorem FeedResult.buf_cases {b : Byte} {s t : State} (h : FeedResult b s t) :
    t.buf = s.buf ∨
    (byteClass b = .data ∧ s.cfg.bufCap ≠ some s.buf.length ∧ ∃ v, t.buf = s.buf ++ [v]) ∨
    (b = wireEND ∧ t.buf = []) := by
  by_cases hb : b = wireEND
  · subst hb
    exact .inr (.inr ⟨rfl, h.cleared.1⟩)
  · cases h with
    | esc _ ht => exact .inl (by rw [ht, State.setEsc_buf])
    | append hdata hroom ht => exact .inr (.inl ⟨hdata, hroom, unescape s.esc b, by simp [ht]⟩)
    | overflow _ _ ht => exact .inl (by rw [ht, raise_buf])
    | _ => contradiction

/-- A feed keeps the buffer within the capacity: only a data byte that finds room makes it longer. -/
theorem FeedResult.buf_fits {b : Byte} {s t : State} (h : FeedResult b s t) {cap : Nat}
    (hcap : s.cfg.bufCap = some cap) (hfit : s.buf.length ≤ cap) : t.buf.length ≤ cap := by
  rcases h.buf_cases with hbuf | ⟨-, hroom, v, hbuf⟩ | ⟨-, hbuf⟩
  · rwa [hbuf]
  · have hne : cap ≠ s.buf.length := by simpa [hcap] using hroom
    rw [hbuf, List.length_append, List.length_singleton]
    omega
  · simp [hbuf]

/-! ## The flag -/

theorem tagCondition_ne_bufOverflow (tag v : Byte) : tagCondition tag ≠ .bufOverflow v := by
  unfold tagCondition
  split <;> simp

/-- Raising another condition in a block that runs leaves no overflow record. -/
theorem raise_fault_ne_bufOverflow {c : Condition} {s : State} (hs : s.fault = none) (v : Byte)
    (hc : c ≠ .bufOverflow v) : (raise c s).fault ≠ some (.bufOverflow v) := by
  rw [raise_fault]
  split
  · simpa using hc
  · simp [hs]

/-- A feed of `END` does not overflow: a dispatch raises only the conditions of text and of tags. -/
theorem FeedResult.fault_ne_bufOverflow_of_END {s t : State} (h : FeedResult wireEND s t) (hs : s.fault = none)
    (v : Byte) : t.fault ≠ some (.bufOverflow v) := by
  cases h with
  | esc hb => exact absurd hb (by decide)
  | append hb => exact absurd hb (by decide)
  | overflow hb => exact absurd hb (by decide)
  | discard _ _ ht => simp [ht, hs]
  | print _ _ _ _ _ ht => simp [ht, hs]
  | malformed _ _ _ _ _ _ _ ht => rw [ht]; exact raise_fault_ne_bufOverflow (by simpa) v (by simp)
  | condition _ tag _ _ _ _ ht =>
    rw [ht]
    exact raise_fault_ne_bufOverflow (by simpa) v (tagCondition_ne_bufOverflow tag v)

/-- What a feed does to the flag: `ESC` sets it, another byte clears it, and only an overflow keeps it. -/
theorem FeedResult.esc_cases {b : Byte} {s t : State} (h : FeedResult b s t) (hs : s.fault = none) :
    (b = wireESC ∧ t.esc = true ∧ ∀ v, t.fault ≠ some (.bufOverflow v)) ∨
    (b ≠ wireESC ∧ t.esc = false ∧ ∀ v, t.fault ≠ some (.bufOverflow v)) ∨
    (b ≠ wireESC ∧ t.esc = s.esc ∧ t.fault = some (.bufOverflow b)) := by
  by_cases hb : b = wireEND
  · subst hb
    exact .inr (.inl ⟨by decide, h.cleared.2, h.fault_ne_bufOverflow_of_END hs⟩)
  · cases h with
    | esc hesc ht => exact .inl ⟨hesc, by simp [ht], by simp [ht, hs]⟩
    | append hdata _ ht =>
      exact .inr (.inl ⟨((byteClass_data_iff b).1 hdata).1, by simp [ht], by simp [ht, hs]⟩)
    | overflow hdata _ ht =>
      exact .inr (.inr ⟨((byteClass_data_iff b).1 hdata).1, by simp [ht], by simp [ht, Condition.isFatal]⟩)
    | _ => contradiction

/-- `ESC` and `END` do not read the flag: the one sets it, the other clears it before the dispatch. -/
theorem feed_esc_irrelevant {b : Byte} (hb : byteClass b ≠ .data) (s : State) (e : Bool) :
    feed b { s with esc := e } = feed b s := by
  by_cases hesc : b = wireESC
  · subst hesc
    rfl
  · have hend : b = wireEND := by
      by_contra hne
      exact hb ((byteClass_data_iff b).2 ⟨hesc, hne⟩)
    subst hend
    rfl

/-! ## The statements -/

/-- Settles O5: `END` is the feed of its byte, which completes, clears the Decoder and leaves the rest alone. -/
theorem endAlwaysCompletesAndClears : Obligations.EndAlwaysCompletesAndClears := by
  unfold Obligations.EndAlwaysCompletesAndClears
  intro s
  obtain ⟨t, ht, hresult⟩ := feed_result wireEND s
  obtain ⟨hbuf, hesc⟩ := hresult.cleared
  exact ⟨t, ht, hbuf, hesc, hresult.untouched⟩

/-- Settles O31: a step is idle, or it feeds one byte with one of the changes of `FeedResult.buf_cases`. -/
theorem bufferChangesInTwoWaysOnly : Obligations.BufferChangesInTwoWaysOnly := by
  unfold Obligations.BufferChangesInTwoWaysOnly
  intro s t hstep
  obtain ⟨-, ⟨-, rfl⟩ | ⟨b, rest, hrx, hfeed⟩⟩ := step_inv hstep
  · exact ⟨.inl rfl, fun _ _ hfit => hfit⟩
  · refine ⟨?_, fun _ hcap hfit => hfeed.buf_fits hcap hfit⟩
    rcases hfeed.buf_cases with hbuf | ⟨hdata, -, v, hbuf⟩ | ⟨rfl, hbuf⟩
    · exact .inl hbuf
    · exact .inr (.inl ⟨b, v, by simp [hrx], hdata, hbuf⟩)
    · exact .inr (.inr ⟨by simp [hrx], hbuf⟩)

/-- Settles O32: the three cases of `FeedResult.esc_cases` give the value of the flag, and `ESC` and `END` are fed alike
whatever it was. -/
theorem escFlagTellsTheLastByte : Obligations.EscFlagTellsTheLastByte := by
  unfold Obligations.EscFlagTellsTheLastByte
  intro s t b rest hrx hstep
  have hs : s.fault = none := (step_inv hstep).1
  have hfeed : feed b (s.taken rest) = .next t := (step_feed hs hrx).symm.trans hstep
  have hread : byteClass b ≠ .data → ∀ e, step { s with esc := e } = .next t := by
    intro hb e
    rw [step_feed (s := { s with esc := e }) hs hrx, ← hfeed]
    exact feed_esc_irrelevant hb (s.taken rest) e
  rcases (feed_inv hfeed).esc_cases hs with ⟨hb, hesc, hno⟩ | ⟨hb, hesc, hno⟩ | ⟨hb, hesc, hover⟩
  · exact ⟨fun _ => hesc, fun hne => absurd hb hne, fun v hv => absurd hv (hno v), hread⟩
  · exact ⟨fun he => absurd he hb, fun _ _ => hesc, fun v hv => absurd hv (hno v), hread⟩
  · exact ⟨fun he => absurd he hb, fun _ hno => absurd hover (hno b), fun _ _ => hesc, hread⟩

end Sys2Proof.Machine
end

section
/-! The output streams (20_memory.md R23 to R25, R32): what a feed appends to HOST_OUT, and that a step appends to what
the streams held before without reading it. -/

namespace Sys2Proof.Machine

/-! ## The writer of HOST_OUT -/

/-- A feed leaves HOST_OUT alone, or ends a debug frame of text, appends its payload and raises nothing. -/
theorem FeedResult.hostOut_cases {b : Byte} {s t : State} (h : FeedResult b s t) :
    t.hostOut = s.hostOut ∨
    ∃ p, p ≠ [] ∧ b = wireEND ∧ strip0 s.buf = 0x0A#8 :: p ∧ IsUtf8Text p ∧
      t.hostOut = s.hostOut ++ p ∧ t.cond = s.cond ∧ t.fault = s.fault := by
  cases h with
  | print hb p hp hf htext ht => exact .inr ⟨p, hp, hb, hf, htext, by simp [ht], by simp [ht], by simp [ht]⟩
  | _ => subst t; exact .inl (by simp)

/-! ## What the streams held before -/

/-- `s` with `h`, `c` and `d` already on the output streams, before what `s` holds there. -/
def State.behind (s : State) (h : List Byte) (c : List Condition) (d : List DiagRecord) : State :=
  { s with hostOut := h ++ s.hostOut, cond := c ++ s.cond, diag := d ++ s.diag }

/-- `s` with nothing on the output streams. -/
def State.silent (s : State) : State := { s with hostOut := [], cond := [], diag := [] }

section
variable (h : List Byte) (c : List Condition) (d : List DiagRecord)

/-- Any contents of the output streams are contents put before empty streams. -/
theorem State.silent_behind (s : State) : s.silent.behind h c d = { s with hostOut := h, cond := c, diag := d } := by
  simp [State.behind, State.silent]

theorem State.bufFull_behind (s : State) : (s.behind h c d).bufFull = s.bufFull := rfl

theorem State.appendHostOut_behind (s : State) (p : List Byte) :
    (s.behind h c d).appendHostOut p = (s.appendHostOut p).behind h c d := by
  simp [State.behind, State.appendHostOut]

theorem State.appendDiag_behind (s : State) (r : DiagRecord) :
    (s.behind h c d).appendDiag r = (s.appendDiag r).behind h c d := by
  simp [State.behind, State.appendDiag]

theorem raise_behind (k : Condition) (s : State) : raise k (s.behind h c d) = (raise k s).behind h c d := by
  simp [raise_eq, State.behind]

theorem execDebug_behind {p : List Byte} {s t : State} (hexec : execDebug p s = .next t) :
    execDebug p (s.behind h c d) = .next (t.behind h c d) := by
  unfold execDebug at hexec ⊢
  cases hk : utf8Check p <;> rw [hk] at hexec <;> cases hexec
  · exact congrArg _ (s.appendHostOut_behind h c d p)
  · exact congrArg _ (raise_behind h c d _ s)

theorem route_behind {tag : Byte} {p : List Byte} {s t : State} (hroute : route tag p s = .next t) :
    route tag p (s.behind h c d) = .next (t.behind h c d) := by
  by_cases hc : tagClass tag = .debug
  · obtain rfl := tagClass_debug hc
    exact execDebug_behind h c d hroute
  · rw [route_not_debug hc] at hroute ⊢
    cases hroute
    exact congrArg _ (raise_behind h c d _ s)

theorem dispatch_behind {f : List Byte} {s t : State} (hdisp : dispatch f s = .next t) :
    dispatch f (s.behind h c d) = .next (t.behind h c d) := by
  match f with
  | [] => cases hdisp; exact congrArg _ (s.appendDiag_behind h c d _)
  | [_] => cases hdisp; exact congrArg _ (s.appendDiag_behind h c d _)
  | tag :: q :: qs =>
    rw [dispatch, s.appendDiag_behind]
    exact route_behind h c d hdisp

theorem feedData_behind {b : Byte} {s t : State} (hfeed : feedData b s = .next t) :
    feedData b (s.behind h c d) = .next (t.behind h c d) := by
  unfold feedData at hfeed ⊢
  rw [s.bufFull_behind]
  cases hfull : s.bufFull <;> rw [hfull] at hfeed <;> cases hfeed
  · rfl
  · exact congrArg _ (raise_behind h c d _ s)

theorem feed_behind {b : Byte} {s t : State} (hfeed : feed b s = .next t) :
    feed b (s.behind h c d) = .next (t.behind h c d) := by
  by_cases h1 : b = wireESC
  · subst h1
    cases hfeed
    rfl
  by_cases h2 : b = wireEND
  · subst h2
    exact dispatch_behind h c d hfeed
  · rw [feed_data h1 h2] at hfeed ⊢
    exact feedData_behind h c d hfeed

/-- A step does not see what the output streams held before: it appends the same behind it. -/
theorem step_behind {s t : State} (hstep : step s = .next t) :
    step (s.behind h c d) = .next (t.behind h c d) := by
  obtain ⟨hs, ⟨hrx, rfl⟩ | ⟨b, rest, hrx, -⟩⟩ := step_inv hstep
  · exact step_idle (s := t.behind h c d) hs hrx
  · rw [step_feed hs hrx] at hstep
    rw [step_feed (s := s.behind h c d) hs hrx]
    exact feed_behind h c d hstep

end

/-- A state without fault steps. -/
theorem step_next_of_no_fault {s : State} (hs : s.fault = none) : ∃ t, step s = .next t := by
  cases hrx : s.rx with
  | nil => exact ⟨s, step_idle hs hrx⟩
  | cons b rest =>
    obtain ⟨t, ht, -⟩ := feed_result b (s.taken rest)
    exact ⟨t, (step_feed hs hrx).trans ht⟩

/-! ## The statements -/

/-- Settles O34: a step is idle, or it feeds one byte with one of the outcomes of `FeedResult.hostOut_cases`. -/
theorem onlyDebugFramesWriteHostOut : Obligations.OnlyDebugFramesWriteHostOut := by
  unfold Obligations.OnlyDebugFramesWriteHostOut
  intro s t hstep
  obtain ⟨hs, ⟨-, rfl⟩ | ⟨b, rest, hrx, hfeed⟩⟩ := step_inv hstep
  · exact .inl rfl
  · rcases hfeed.hostOut_cases with hout | ⟨p, hp, rfl, hf, htext, hout, hcond, hfault⟩
    · exact .inl hout
    · exact .inr ⟨p, hp, by simp [hrx], hf, htext, hout, hcond, hfault.trans hs⟩

/-- Settles O35: both steps are the step from empty output streams, `step_behind` what the streams held before. -/
theorem outputStreamsAreNeverReadBack : Obligations.OutputStreamsAreNeverReadBack := by
  unfold Obligations.OutputStreamsAreNeverReadBack
  intro s t h c d hstep
  obtain ⟨u, hu⟩ := step_next_of_no_fault (s := s.silent) (step_inv hstep).1
  have hany : ∀ h c d, step { s with hostOut := h, cond := c, diag := d } = .next (u.behind h c d) := by
    intro h c d
    rw [← s.silent_behind h c d]
    exact step_behind h c d hu
  obtain rfl : t = u.behind s.hostOut s.cond s.diag :=
    Host.Outcome.next.inj (hstep.symm.trans (hany s.hostOut s.cond s.diag))
  exact ⟨u.behind h c d, u.hostOut, u.cond, hany h c d, rfl, rfl, rfl, rfl, rfl, rfl, rfl, rfl, rfl, rfl, rfl⟩

end Sys2Proof.Machine
end

section
/-! The classes of the wire format (30_encoding.md R36, R42): the row the decoder picks for a byte and for a tag. -/

namespace Sys2Proof

/-! ## Which rows a tag class has (R41, R48) -/

theorem TagRow.cls_eq_ipv4_iff (r : TagRow) : r.cls = .ipv4 ↔ r = .ipv4At45 ∨ r = .ipv4At46 ∨ r = .ipv4At48 := by
  cases r <;> simp [TagRow.cls]

theorem TagRow.cls_eq_ipv6_iff (r : TagRow) : r.cls = .ipv6 ↔ r = .ipv6 := by
  cases r <;> simp [TagRow.cls]

theorem TagRow.cls_eq_unknown_iff (r : TagRow) : r.cls = .unknown ↔ r = .unknown := by
  cases r <;> simp [TagRow.cls]

/-! ## The class of a tag, by its value (R42) -/

theorem Byte.inRange_iff (lo hi b : Byte) : Byte.inRange lo hi b = true ↔ lo ≤ b ∧ b ≤ hi := by
  simp [Byte.inRange]

theorem tagClass_ipv4 {t : Byte} (h : 0x45#8 ≤ t ∧ t ≤ 0x4F#8) : tagClass t = .ipv4 := by
  rw [tagClass, if_pos ((Byte.inRange_iff ..).2 h)]

theorem tagClass_ipv6 {t : Byte} (h : 0x60#8 ≤ t ∧ t ≤ 0x6F#8) : tagClass t = .ipv6 := by
  have h4 : ¬ (0x45#8 ≤ t ∧ t ≤ 0x4F#8) := by bv_omega
  rw [tagClass, if_neg (mt (Byte.inRange_iff ..).1 h4), if_pos ((Byte.inRange_iff ..).2 h)]

theorem tagClass_unknown {t : Byte} (h4 : ¬ (0x45#8 ≤ t ∧ t ≤ 0x4F#8)) (h6 : ¬ (0x60#8 ≤ t ∧ t ≤ 0x6F#8))
    (hdebug : t ≠ 0x0A#8) (hcoap : t ≠ 0xA9#8) : tagClass t = .unknown := by
  rw [tagClass, if_neg (mt (Byte.inRange_iff ..).1 h4), if_neg (mt (Byte.inRange_iff ..).1 h6), if_neg hdebug,
    if_neg hcoap]

/-! ## The instruction of a tag, by its class -/

/-- A tag of class IPV4 is 0x45, or it decodes to a row whose free bits give it back. -/
theorem decodeTag_of_ipv4 {t : Byte} (h : tagClass t = .ipv4) (p : List Byte) :
    (t = 0x45#8 ∧ decodeTag t p = .ipv4At45 p) ∨
    (∃ low, tagOf46 low = t ∧ decodeTag t p = .ipv4At46 low p) ∨
    (∃ low, tagOf48 low = t ∧ decodeTag t p = .ipv4At48 low p) := by
  obtain ⟨-, -, h45, h46, h48, -⟩ := tagRow_value t
  rcases (tagRow t).cls_eq_ipv4_iff.1 ((tagRow_cls t).trans h) with hr | hr | hr
  · exact .inl ⟨h45 hr, by rw [decodeTag, hr]⟩
  · exact .inr (.inl ⟨lowOf46 t, h46 hr, by rw [decodeTag, hr]⟩)
  · exact .inr (.inr ⟨lowOf48 t, h48 hr, by rw [decodeTag, hr]⟩)

theorem decodeTag_of_ipv6 {t : Byte} (h : tagClass t = .ipv6) (p : List Byte) :
    ∃ low, tagOf60 low = t ∧ decodeTag t p = .ipv6 low p := by
  obtain ⟨-, -, -, -, -, h60⟩ := tagRow_value t
  have hr := (tagRow t).cls_eq_ipv6_iff.1 ((tagRow_cls t).trans h)
  exact ⟨lowOf60 t, h60 hr, by rw [decodeTag, hr]⟩

theorem decodeTag_of_unknown {t : Byte} (h : tagClass t = .unknown) (p : List Byte) :
    decodeTag t p = .unknown t p := by
  rw [decodeTag, (tagRow t).cls_eq_unknown_iff.1 ((tagRow_cls t).trans h)]

@[simp] theorem decodeTag_0A (p : List Byte) : decodeTag 0x0A#8 p = .debug p := rfl
@[simp] theorem decodeTag_A9 (p : List Byte) : decodeTag 0xA9#8 p = .coap p := rfl

/-! ## The statements -/

/-- Settles O9: a byte of class data is one of the three named data bytes, or plain data. -/
theorem byteRowsFollowTheClasses : Obligations.ByteRowsFollowTheClasses := by
  unfold Obligations.ByteRowsFollowTheClasses
  intro b
  refine ⟨fun h => h ▸ decodeByte_ESC, fun h => h ▸ decodeByte_END, fun hesc hend => ?_⟩
  rcases byte_cases b with h | h | rfl | rfl | rfl | hplain
  · exact absurd h hend
  · exact absurd h hesc
  · exact .inl ⟨rfl, decodeByte_ESC_END⟩
  · exact .inr (.inl ⟨rfl, decodeByte_ESC_ESC⟩)
  · exact .inr (.inr (.inl ⟨rfl, decodeByte_PAD⟩))
  · have hnamed : b ≠ 0xDC#8 ∧ b ≠ 0xDD#8 ∧ b ≠ 0x00#8 := by simp_all [isPlainData]
    obtain ⟨h1, h2, h3⟩ := hnamed
    exact .inr (.inr (.inr ⟨h1, h2, h3, decodeByte_plain hplain⟩))

/-- Settles O10: the ranges give the class of the tag, and the class its row. -/
theorem tagRowsFollowTheClasses : Obligations.TagRowsFollowTheClasses := by
  unfold Obligations.TagRowsFollowTheClasses
  intro t p
  exact ⟨fun h => decodeTag_of_ipv4 (tagClass_ipv4 h) p, fun h => decodeTag_of_ipv6 (tagClass_ipv6 h) p,
    fun h => h ▸ decodeTag_0A p, fun h => h ▸ decodeTag_A9 p,
    fun h4 h6 hdebug hcoap => decodeTag_of_unknown (tagClass_unknown h4 h6 hdebug hcoap) p⟩

end Sys2Proof
end

section
/-! The unstuffing table (30_encoding.md R37): what a waiting block makes of a data byte, alone and after `ESC`. -/

namespace Sys2Proof.Machine

/-- Room for at least one byte: the buffer is not full. -/
theorem State.room.not_full {s : State} {n : Nat} (h : s.room (n + 1)) : s.cfg.bufCap ≠ some s.buf.length := by
  intro hfull
  have := h _ hfull
  omega

/-- A waiting block appends a data byte, substituted when the flag is set, and clears the flag. -/
theorem process_data_single {s : State} (hw : s.waiting) (hroom : s.room 1) {v : Byte} (hv : byteClass v = .data) :
    (process [v] s).buf = s.buf ++ [unescape s.esc v] ∧ (process [v] s).esc = false := by
  rw [(process_data hw hv hroom.not_full []).1, process_nil]
  exact ⟨rfl, rfl⟩

/-- After `ESC` a waiting block appends the substituted data byte and clears the flag, whatever the flag was before. -/
theorem process_ESC_data {s : State} (hw : s.waiting) (hroom : s.room 1) {v : Byte} (hv : byteClass v = .data) :
    (process [wireESC, v] s).buf = s.buf ++ [unescape true v] ∧ (process [wireESC, v] s).esc = false := by
  rw [(process_ESC hw [v]).1]
  exact process_data_single (s := (s.taken []).setEsc) hw.taken hroom hv

/-- A second `ESC` appends nothing and leaves the flag set (the spec's own decision D16). -/
theorem process_ESC_ESC {s : State} (hw : s.waiting) :
    (process [wireESC, wireESC] s).buf = s.buf ∧ (process [wireESC, wireESC] s).esc = true := by
  rw [(process_ESC hw [wireESC]).1, (process_ESC (s := (s.taken []).setEsc) hw.taken []).1, process_nil]
  exact ⟨rfl, rfl⟩

/-- `END` ends the frame and clears the Decoder, whatever the flag was. -/
theorem process_END_single {s : State} (hw : s.waiting) : emissionsOf [wireEND] s = [strip0 s.buf] ∧
    (process [wireEND] s).buf = [] ∧ (process [wireEND] s).esc = false := by
  obtain ⟨t, ht, hproc, hemit⟩ := process_END hw []
  rw [hproc, hemit, process_nil]
  exact ⟨rfl, (feed_inv ht).cleared⟩

/-- A pending `ESC` does not reach `END` (the spec's own decision D16). -/
theorem process_ESC_END {s : State} (hw : s.waiting) : emissionsOf [wireESC, wireEND] s = [strip0 s.buf] ∧
    (process [wireESC, wireEND] s).buf = [] ∧ (process [wireESC, wireEND] s).esc = false := by
  obtain ⟨hproc, hemit⟩ := process_ESC hw [wireEND]
  rw [hproc, hemit]
  exact process_END_single (s := (s.taken []).setEsc) hw.taken

/-- Settles O6: each row is one of the chunks above, with the substitution of its byte. -/
theorem escapeSequencesUnstuff : Obligations.EscapeSequencesUnstuff := by
  unfold Obligations.EscapeSequencesUnstuff
  intro s hw hesc hroom
  refine ⟨process_ESC_data hw hroom (by decide), process_ESC_data hw hroom (by decide), fun v hv h1 h2 => ?_,
    process_ESC_ESC hw, process_ESC_END hw, fun v hv => ?_⟩
  · simpa only [unescape_of_ne h1 h2] using process_ESC_data hw hroom hv
  · simpa only [hesc, unescape_false] using process_data_single hw hroom hv

end Sys2Proof.Machine
end

section
/-! The Decoder's rows `ESC` and `END`, and `process` as the fold of `feed` (40_decoder.md R51, R52, R55, R57, R61). -/

namespace Sys2Proof.Machine

/-- A halted block leaves every chunk on RX (60_exceptions.md R107). -/
theorem process_halted {s : State} (hs : s.fault ≠ none) (chunk : List Byte) : process chunk s = s.deliver chunk := by
  obtain ⟨c, hc⟩ := Option.ne_none_iff_exists'.1 hs
  exact run_halted (s := s.deliver chunk) hc chunk.length

/-- With nothing on RX, taking a byte only counts it. -/
theorem State.waiting.taken_eq {s : State} (hw : s.waiting) : s.taken [] = { s with rxpos := s.rxpos + 1 } := by
  rw [State.taken, ← hw.2]

/-- Settles O1: the arm of `ESC` is `setEsc`. -/
theorem escSetsOnlyTheFlag : Obligations.EscSetsOnlyTheFlag := by
  unfold Obligations.EscSetsOnlyTheFlag
  intro s
  exact feed_ESC s

/-- Settles O4: `END` dispatches `strip0` of the buffer, which is what follows the leading zeros. -/
theorem endDispatchesTheStrippedBuffer : Obligations.EndDispatchesTheStrippedBuffer := by
  unfold Obligations.EndDispatchesTheStrippedBuffer
  intro s
  obtain ⟨n, hbuf⟩ := strip0_spec s.buf
  exact ⟨n, strip0 s.buf, hbuf, strip0_head_ne s.buf, feed_END s⟩

/-- Settles O41: the laws of `process` on the empty chunk, on two chunks and on a first byte; after a fatal feed the
block is halted and the other bytes are only delivered. -/
theorem processFoldsFeed : Obligations.ProcessFoldsFeed := by
  unfold Obligations.ProcessFoldsFeed
  refine fun s => ⟨process_nil s, fun a b => (process_append a b s).1, fun hw b bs => ?_⟩
  obtain ⟨t, ht, hresult⟩ := feed_result b (s.taken [])
  obtain ⟨-, hrx, -, -⟩ := hresult.untouched
  have hproc : process (b :: bs) s = process bs t := (process_cons hw ht bs).1
  refine ⟨t, hw.taken_eq ▸ ht, hproc, fun hfatal => ?_⟩
  rw [hproc, process_halted hfatal, State.deliver, hrx, State.taken_rx, List.nil_append]

/-- Settles O42: by induction on the chunks, with `process_append` for the first chunk and the others. -/
theorem chunkSplitsAreInvisible : Obligations.ChunkSplitsAreInvisible := by
  unfold Obligations.ChunkSplitsAreInvisible
  intro chunks
  induction chunks with
  | nil => exact fun s => ⟨(process_nil s).symm, rfl⟩
  | cons c cs ih =>
    intro s
    obtain ⟨hproc, hemit⟩ := process_append c cs.flatten s
    obtain ⟨ihproc, ihemit⟩ := ih (process c s)
    rw [List.flatten_cons, hproc, hemit, processAll, emissionsOfAll, ihproc, ihemit]
    exact ⟨rfl, rfl⟩

end Sys2Proof.Machine
end

section
/-! The wire image of a frame (30_encoding.md R46, R47, 40_decoder.md R62): a block that waits with the flag clear
receives the stuffed bytes as the frame's own, and the `END` behind them dispatches the frame. -/

namespace Sys2Proof

/-- Stuffing works byte by byte. -/
theorem stuff_cons (b : Byte) (f : List Byte) : stuff (b :: f) = stuff [b] ++ stuff f := by
  by_cases hend : b = wireEND
  · subst hend; simp
  by_cases hesc : b = wireESC
  · subst hesc; simp
  · simp [stuff_other hend hesc]

namespace Machine

/-- The block once it has received the stuffed image of `f`. -/
def State.received (s : State) (f : List Byte) : State :=
  { s with buf := s.buf ++ f, rxpos := s.rxpos + (stuff f).length }

section
variable (s : State) (f : List Byte)

@[simp] theorem State.received_cfg : (s.received f).cfg = s.cfg := rfl
@[simp] theorem State.received_rx : (s.received f).rx = s.rx := rfl
@[simp] theorem State.received_rxpos : (s.received f).rxpos = s.rxpos + (stuff f).length := rfl
@[simp] theorem State.received_buf : (s.received f).buf = s.buf ++ f := rfl
@[simp] theorem State.received_esc : (s.received f).esc = s.esc := rfl
@[simp] theorem State.received_fault : (s.received f).fault = s.fault := rfl
@[simp] theorem State.received_hostOut : (s.received f).hostOut = s.hostOut := rfl
@[simp] theorem State.received_cond : (s.received f).cond = s.cond := rfl

theorem State.received_nil : s.received [] = s := by simp [State.received]

theorem State.received_cons (b : Byte) : s.received (b :: f) = (s.received [b]).received f := by
  simp [State.received, stuff_cons b f, Nat.add_assoc]

end

/-- A received byte takes one place. -/
theorem State.room.received {s : State} {n : Nat} (h : s.room (n + 1)) (b : Byte) : (s.received [b]).room n := by
  intro cap hcap
  have hfit := h cap hcap
  rw [State.received_buf, List.length_append, List.length_singleton]
  omega

/-- An escaped byte: `ESC` and its code byte append the byte they stand for. -/
theorem process_stuff_escaped {s : State} (hw : s.waiting) (hesc : s.esc = false)
    (hroom : s.cfg.bufCap ≠ some s.buf.length) {b code : Byte} (hcode : byteClass code = .data)
    (hb : unescape true code = b) (hstuff : stuff [b] = [wireESC, code]) (rest : List Byte) :
    process (stuff [b] ++ rest) s = process rest (s.received [b]) ∧
      emissionsOf (stuff [b] ++ rest) s = emissionsOf rest (s.received [b]) := by
  have hstate : (((s.taken []).setEsc.taken []).appendBuf (unescape true code)).clearEsc = s.received [b] := by
    simp [State.taken, State.setEsc, State.appendBuf, State.clearEsc, State.received, hw.2, hesc, hb, hstuff]
  obtain ⟨hproc, hemit⟩ := process_ESC hw (code :: rest)
  rw [hstuff, List.cons_append, List.singleton_append, hproc, hemit, ← hstate]
  exact process_data (s := (s.taken []).setEsc) hw.taken hcode hroom rest

/-- The one or two bytes that stand for `b` on the wire append `b`. -/
theorem process_stuff_byte {s : State} (hw : s.waiting) (hesc : s.esc = false)
    (hroom : s.cfg.bufCap ≠ some s.buf.length) (b : Byte) (rest : List Byte) :
    process (stuff [b] ++ rest) s = process rest (s.received [b]) ∧
      emissionsOf (stuff [b] ++ rest) s = emissionsOf rest (s.received [b]) := by
  by_cases h1 : b = wireEND
  · subst h1
    exact process_stuff_escaped hw hesc hroom (by decide) unescape_END (stuff_END []) rest
  by_cases h2 : b = wireESC
  · subst h2
    exact process_stuff_escaped hw hesc hroom (by decide) unescape_ESC (stuff_ESC []) rest
  · have hstuff : stuff [b] = [b] := stuff_other h1 h2 []
    have hstate : ((s.taken []).appendBuf (unescape s.esc b)).clearEsc = s.received [b] := by
      simp [State.taken, State.appendBuf, State.clearEsc, State.received, hw.2, hesc, hstuff]
    rw [hstuff, ← hstate]
    exact process_data hw ((byteClass_data_iff b).2 ⟨h2, h1⟩) hroom rest

/-- A block with the flag clear and room for `f` receives `f` from its stuffed image, whatever follows. -/
theorem process_stuff (f : List Byte) {s : State} (hw : s.waiting) (hesc : s.esc = false) (hroom : s.room f.length)
    (rest : List Byte) : process (stuff f ++ rest) s = process rest (s.received f) ∧
      emissionsOf (stuff f ++ rest) s = emissionsOf rest (s.received f) := by
  induction f generalizing s with
  | nil => rw [s.received_nil]; exact ⟨rfl, rfl⟩
  | cons b f ih =>
    obtain ⟨hproc, hemit⟩ := process_stuff_byte hw hesc hroom.not_full b (stuff f ++ rest)
    rw [stuff_cons, List.append_assoc, hproc, hemit, s.received_cons f b]
    exact ih (s := s.received [b]) hw hesc (hroom.received b)

/-- The wire image of `f` makes a block with room for it emit the buffer followed by `f`, stripped, and leaves the
state after the feed of its `END`. -/
theorem process_frameBytes {s : State} (hw : s.waiting) (hesc : s.esc = false) {f : List Byte}
    (hroom : s.room f.length) :
    feed wireEND ((s.received f).taken []) = .next (process (frameBytes f) s) ∧
      emissionsOf (frameBytes f) s = [strip0 (s.buf ++ f)] := by
  obtain ⟨hproc, hemit⟩ := process_stuff f hw hesc hroom [wireEND]
  obtain ⟨t, ht, hprocEND, hemitEND⟩ := process_END (s := s.received f) hw []
  rw [frameBytes, hproc, hemit, hprocEND, hemitEND, process_nil]
  exact ⟨ht, rfl⟩

theorem frameBytes_length (f : List Byte) : (frameBytes f).length = (stuff f).length + 1 := by
  rw [frameBytes, List.length_append, List.length_singleton]

/-! ## The debug frame -/

theorem utf8Check_text {p : List Byte} (h : IsUtf8Text p) : utf8Check p = .ok := by
  have hscan := utf8Scan_text h 0 0 0 []
  rwa [List.append_nil] at hscan

/-- The debug handler writes text as it is (41_dispatcher.md R74). -/
theorem execDebug_text {p : List Byte} (h : IsUtf8Text p) (s : State) : execDebug p s = .next (s.appendHostOut p) := by
  rw [execDebug, utf8Check_text h]

/-- The `END` of a debug frame of text prints it. -/
theorem feed_END_debug {s : State} {p : List Byte} (hf : strip0 s.buf = 0x0A#8 :: p) (hp : p ≠ [])
    (h : IsUtf8Text p) :
    feed wireEND s = .next ((s.clearBuf.clearEsc.appendDiag (.frameReceived (0x0A#8 :: p))).appendHostOut p) := by
  obtain ⟨q, qs, rfl⟩ := List.exists_cons_of_ne_nil hp
  rw [feed_END, hf, dispatch, route_debug, execDebug_text h]

/-- Settles O44: the block receives the frame, which begins with the tag and so loses nothing to the strip, and its
`END` prints the payload. -/
theorem debugFrameIsPrintedAndNothingElse : Obligations.DebugFrameIsPrintedAndNothingElse := by
  unfold Obligations.DebugFrameIsPrintedAndNothingElse
  intro s p ⟨hw, hbuf, hesc⟩ hroom hp htext
  have hstrip : strip0 (s.received (0x0A#8 :: p)).buf = 0x0A#8 :: p := by
    rw [State.received_buf, hbuf, List.nil_append, strip0_cons_ne (by decide)]
  obtain ⟨hfeed, -⟩ := process_frameBytes hw hesc (f := 0x0A#8 :: p) hroom
  rw [feed_END_debug (s := (s.received (0x0A#8 :: p)).taken []) hstrip hp htext] at hfeed
  rw [← Host.Outcome.next.inj hfeed]
  refine ⟨⟨⟨?_, rfl⟩, rfl, rfl⟩, ?_, ?_, ?_⟩
  · simpa using hw.1
  · simp
  · simp
  · simp [frameBytes_length, Nat.add_assoc]

end Machine
end Sys2Proof
end

section
/-! The Dispatcher (41_dispatcher.md R72, R73, R76 to R79): what a dispatch does with a sequence by its length, and what
the handlers other than DEBUG report. -/

namespace Sys2Proof.Machine

/-! ## A sequence by its length -/

/-- A sequence of length 0 or 1 is only recorded on DIAG (R71, R72). -/
theorem dispatch_short {f : List Byte} (h : f.length ≤ 1) (s : State) :
    dispatch f s = .next (s.appendDiag (.frameReceived f)) := by
  match f with
  | [] => rfl
  | [_] => rfl
  | _ :: _ :: _ => simp at h

/-- An actionable frame is recorded on DIAG and runs the instruction of its tag (R71, R73). -/
theorem dispatch_actionable (tag : Byte) {p : List Byte} (hp : p ≠ []) (s : State) :
    dispatch (tag :: p) s = exec (decodeTag tag p) (s.appendDiag (.frameReceived (tag :: p))) := by
  obtain ⟨q, qs, rfl⟩ := List.exists_cons_of_ne_nil hp
  rw [dispatch, route_eq_exec]

/-! ## The reports of the handlers -/

/-- An unimplemented frame kind is reported on COND, and is fatal exactly when `UNIMPL_FATAL` is true (R76 to R78). -/
theorem raiseUnimplemented_eq (kind : FrameKind) (tag : Byte) (s : State) :
    raiseUnimplemented kind tag s = .next { s with
      cond := s.cond ++ [.unimplemented kind tag],
      fault := if s.cfg.unimplFatal then some (.unimplemented kind tag) else s.fault } := by
  rw [raiseUnimplemented, raise_eq, Condition.isFatal]

/-- An unknown tag is reported on COND and is fatal under all parameters (R79). -/
theorem raise_unknownTag (tag : Byte) (s : State) :
    raise (.unknownTag tag) s = { s with cond := s.cond ++ [.unknownTag tag], fault := some (.unknownTag tag) } := by
  rw [raise_eq, Condition.isFatal, if_pos rfl]

/-! ## The statements -/

/-- Settles O15: the DIAG record is all that a short sequence leaves. -/
theorem shortSequencesAreDiscarded : Obligations.ShortSequencesAreDiscarded := by
  unfold Obligations.ShortSequencesAreDiscarded
  intro f s h
  exact ⟨_, dispatch_short h s, rfl, rfl, rfl, rfl, rfl, rfl, rfl, rfl, rfl⟩

/-- Settles O16: by then DIAG holds the record of the frame. -/
theorem actionableFrameRunsItsHandler : Obligations.ActionableFrameRunsItsHandler := by
  unfold Obligations.ActionableFrameRunsItsHandler
  intro tag p s hp
  exact ⟨s.diag ++ [DiagRecord.frameReceived (tag :: p)], dispatch_actionable tag hp s⟩

/-- Settles O19: each row raises the unimplemented condition of the kind IPV4 with its own tag. -/
theorem ipv4RowsRaiseUnimplemented : Obligations.Ipv4RowsRaiseUnimplemented := by
  unfold Obligations.Ipv4RowsRaiseUnimplemented
  intro p s
  exact ⟨raiseUnimplemented_eq .ipv4 0x45#8 s, fun low => raiseUnimplemented_eq .ipv4 (tagOf46 low) s,
    fun low => raiseUnimplemented_eq .ipv4 (tagOf48 low) s⟩

/-- Settles O20: the row raises the unimplemented condition of the kind IPV6 with its own tag. -/
theorem ipv6RowRaisesUnimplemented : Obligations.Ipv6RowRaisesUnimplemented := by
  unfold Obligations.Ipv6RowRaisesUnimplemented
  intro low p s
  exact raiseUnimplemented_eq .ipv6 (tagOf60 low) s

/-- Settles O21: the row raises the unimplemented condition of the kind COAP with its one tag. -/
theorem coapRowRaisesUnimplemented : Obligations.CoapRowRaisesUnimplemented := by
  unfold Obligations.CoapRowRaisesUnimplemented
  intro p s
  exact raiseUnimplemented_eq .coap 0xA9#8 s

/-- Settles O22: the row raises the unknown-tag condition, which is always fatal. -/
theorem unknownRowRaisesUnknownTag : Obligations.UnknownRowRaisesUnknownTag := by
  unfold Obligations.UnknownRowRaisesUnknownTag
  intro tag p s
  exact congrArg Host.Outcome.next (raise_unknownTag tag s)

end Sys2Proof.Machine
end

section
/-! Liveness (70_reset_and_hazards.md R134): a block without fault consumes the byte at the head of RX. -/

namespace Sys2Proof.Machine

/-- Settles O28: the step takes the head of RX and feeds it; a feed always completes and leaves RX, the position and the
parameters as the taking left them. -/
theorem enabledStepFinishes : Obligations.EnabledStepFinishes := by
  unfold Obligations.EnabledStepFinishes
  intro s ⟨hs, hne⟩
  obtain ⟨b, rest, hrx⟩ := List.exists_cons_of_ne_nil hne
  obtain ⟨t, hfeed, hresult⟩ := feed_result b (s.taken rest)
  obtain ⟨hcfg, htaken, hended, hpos⟩ := hresult.untouched
  have htail : t.rx = s.rx.tail := by rw [htaken, hrx, State.taken_rx, List.tail_cons]
  exact ⟨t, (step_feed hs hrx).trans hfeed, htail, hpos, hended, hcfg⟩

end Sys2Proof.Machine
end

section
/-! Encoder and decoder against each other (30_encoding.md sections 1 to 6): the round trips in both directions, and what
the sender's stuffing leaves on the wire. -/

namespace Sys2Proof

/-! ## One direction: what an instruction's own bytes decode to -/

theorem hasPayload_iff (p : List Byte) : hasPayload p = true ↔ p ≠ [] := by simp [hasPayload]

/-- A tag with a payload is one instruction, which takes the whole sequence (R39). -/
theorem decode_tag_actionable (t : Byte) {p : List Byte} (hp : p ≠ []) :
    decode .tag (t :: p) = .ok (decodeTag t p, []) := by
  obtain ⟨q, qs, rfl⟩ := List.exists_cons_of_ne_nil hp
  rfl

/-- A well-formed RXBYTE instruction is the instruction of its one byte. -/
theorem encode_rxbyte {i : Instr} (hwf : i.wellFormed = true) (hfmt : i.format = .rxbyte) :
    ∃ b, encode i = [b] ∧ decodeByte b = i := by
  cases i with
  | frameEnd => exact ⟨_, rfl, decodeByte_END⟩
  | esc => exact ⟨_, rfl, decodeByte_ESC⟩
  | escEnd => exact ⟨_, rfl, decodeByte_ESC_END⟩
  | escEsc => exact ⟨_, rfl, decodeByte_ESC_ESC⟩
  | pad => exact ⟨_, rfl, decodeByte_PAD⟩
  | data b => exact ⟨b, rfl, decodeByte_plain hwf⟩
  | _ => cases hfmt

/-- A well-formed TAG instruction is the instruction of its tag and its payload, which is not empty. -/
theorem encode_tag {i : Instr} (hwf : i.wellFormed = true) (hfmt : i.format = .tag) :
    ∃ t p, p ≠ [] ∧ encode i = t :: p ∧ decodeTag t p = i := by
  cases i with
  | debug p => exact ⟨_, p, (hasPayload_iff p).1 hwf, rfl, decodeTag_0A p⟩
  | coap p => exact ⟨_, p, (hasPayload_iff p).1 hwf, rfl, decodeTag_A9 p⟩
  | ipv4At45 p => exact ⟨_, p, (hasPayload_iff p).1 hwf, rfl, rfl⟩
  | ipv4At46 low p => exact ⟨_, p, (hasPayload_iff p).1 hwf, rfl, by simp [decodeTag]⟩
  | ipv4At48 low p => exact ⟨_, p, (hasPayload_iff p).1 hwf, rfl, by simp [decodeTag]⟩
  | ipv6 low p => exact ⟨_, p, (hasPayload_iff p).1 hwf, rfl, by simp [decodeTag]⟩
  | unknown t p =>
    obtain ⟨htag, hp⟩ := Bool.and_eq_true_iff.1 hwf
    exact ⟨t, p, (hasPayload_iff p).1 hp, rfl, by rw [decodeTag, (tagRow_unknown_iff t).2 htag]⟩
  | _ => cases hfmt

/-! ## The other direction: what the decoder reads -/

theorem decodeByte_spec (b : Byte) :
    encode (decodeByte b) = [b] ∧ (decodeByte b).wellFormed = true ∧ (decodeByte b).format = .rxbyte := by
  rcases byte_cases b with rfl | rfl | rfl | rfl | rfl | hplain
  · rw [decodeByte_END]; exact ⟨rfl, rfl, rfl⟩
  · rw [decodeByte_ESC]; exact ⟨rfl, rfl, rfl⟩
  · rw [decodeByte_ESC_END]; exact ⟨rfl, rfl, rfl⟩
  · rw [decodeByte_ESC_ESC]; exact ⟨rfl, rfl, rfl⟩
  · rw [decodeByte_PAD]; exact ⟨rfl, rfl, rfl⟩
  · rw [decodeByte_plain hplain]; exact ⟨rfl, hplain, rfl⟩

theorem decodeTag_spec (t : Byte) {p : List Byte} (hp : p ≠ []) :
    encode (decodeTag t p) = t :: p ∧ (decodeTag t p).wellFormed = true ∧ (decodeTag t p).format = .tag := by
  have hpay := (hasPayload_iff p).2 hp
  obtain ⟨hdebug, hcoap, h45, h46, h48, h60⟩ := tagRow_value t
  unfold decodeTag
  cases hr : tagRow t with
  | debug => exact ⟨by rw [hdebug hr]; rfl, hpay, rfl⟩
  | coap => exact ⟨by rw [hcoap hr]; rfl, hpay, rfl⟩
  | ipv4At45 => exact ⟨by rw [h45 hr]; rfl, hpay, rfl⟩
  | ipv4At46 => exact ⟨by simp only [encode, h46 hr], hpay, rfl⟩
  | ipv4At48 => exact ⟨by simp only [encode, h48 hr], hpay, rfl⟩
  | ipv6 => exact ⟨by simp only [encode, h60 hr], hpay, rfl⟩
  | unknown => exact ⟨rfl, Bool.and_eq_true_iff.2 ⟨(tagRow_unknown_iff t).1 hr, hpay⟩, rfl⟩

/-- A decoded instruction is well-formed, of its format, and its bytes are those read. -/
theorem decode_ok_spec {fmt : Format} {bytes rest : List Byte} {i : Instr} (h : decode fmt bytes = .ok (i, rest)) :
    encode i ++ rest = bytes ∧ i.wellFormed = true ∧ i.format = fmt := by
  match fmt, bytes with
  | .rxbyte, [] => cases h
  | .rxbyte, b :: bs =>
    cases h
    obtain ⟨henc, hwf, hfmt⟩ := decodeByte_spec b
    exact ⟨by rw [henc]; rfl, hwf, hfmt⟩
  | .tag, [] => cases h
  | .tag, [_] => cases h
  | .tag, t :: q :: qs =>
    cases h
    obtain ⟨henc, hwf, hfmt⟩ := decodeTag_spec t (List.cons_ne_nil q qs)
    exact ⟨by rw [henc, List.append_nil], hwf, hfmt⟩

/-- No instruction is there exactly in an empty RX and in a sequence without payload (R38, R44). -/
theorem decode_error_iff (fmt : Format) (bytes : List Byte) : (∃ e, decode fmt bytes = .error e) ↔
    (fmt = .rxbyte ∧ bytes.length = 0) ∨ (fmt = .tag ∧ bytes.length ≤ 1) := by
  match fmt, bytes with
  | .rxbyte, [] => simp [decode]
  | .rxbyte, _ :: _ => simp [decode]
  | .tag, [] => simp [decode]
  | .tag, [_] => simp [decode]
  | .tag, _ :: _ :: _ => simp [decode]

/-! ## Stuffing one byte -/

/-- A byte is stuffed to itself, or to `ESC` and a code byte (R46). -/
theorem stuff_singleton_bounds (b : Byte) :
    wireEND ∉ stuff [b] ∧ 1 ≤ (stuff [b]).length ∧ (stuff [b]).length ≤ 2 := by
  by_cases hend : b = wireEND
  · subst hend; decide
  by_cases hesc : b = wireESC
  · subst hesc; decide
  · simp [stuff_other hend hesc, Ne.symm hend]

/-! ## The statements -/

/-- Settles O12: an instruction's bytes are the byte, or the tag and payload, that decode to it. -/
theorem decodeOfEncodeIsTheInstruction : Obligations.DecodeOfEncodeIsTheInstruction := by
  unfold Obligations.DecodeOfEncodeIsTheInstruction
  refine fun i hwf => ⟨fun hfmt rest => ?_, fun hfmt => ?_⟩
  · obtain ⟨b, henc, hdec⟩ := encode_rxbyte hwf hfmt
    rw [henc, List.singleton_append, decode, hdec]
  · obtain ⟨t, p, hp, henc, hdec⟩ := encode_tag hwf hfmt
    rw [henc, decode_tag_actionable t hp, hdec]

/-- Settles O13: what is read is described by `decode_ok_spec`, what is not by `decode_error_iff`. -/
theorem encodeOfDecodeIsTheBytes : Obligations.EncodeOfDecodeIsTheBytes := by
  unfold Obligations.EncodeOfDecodeIsTheBytes
  exact fun fmt bytes => ⟨fun _ _ h => decode_ok_spec h, decode_error_iff fmt bytes⟩

/-- Settles O11: five of the words are named values, the other three are read off the table. -/
theorem writtenWordsDecode : Obligations.WrittenWordsDecode := by
  unfold Obligations.WrittenWordsDecode
  exact ⟨decodeByte_END, decodeByte_ESC, decodeByte_ESC_END, decodeByte_plain (by decide), decodeTag_0A _,
    by decide, by decide, decodeTag_of_unknown (by decide) _⟩

/-- Settles O14: by induction; each byte is stuffed to one or two bytes, none of them `END`. -/
theorem stuffedBytesHoldNoEnd : Obligations.StuffedBytesHoldNoEnd := by
  unfold Obligations.StuffedBytesHoldNoEnd
  intro f
  induction f with
  | nil => simp
  | cons b f ih =>
    obtain ⟨hno, hlow, hhigh⟩ := ih
    obtain ⟨hnob, hlowb, hhighb⟩ := stuff_singleton_bounds b
    rw [stuff_cons, List.length_append, List.length_cons]
    exact ⟨List.not_mem_append hnob hno, by omega, by omega⟩

end Sys2Proof
end

section
/-! The text check and the debug handler (42_utf8_text.md R90 to R93, 41_dispatcher.md R74). -/

namespace Sys2Proof.Machine

/-! ## Text, and the place where it stops -/

/-- Where the text stops, what follows is not text. -/
theorem not_isUtf8Text_of_stop {t rest : List Byte} (ht : IsUtf8Text t) (hr : rest ≠ [])
    (hno : ∀ n, ¬ IsUtf8Sequence (rest.take n)) : ¬ IsUtf8Text (t ++ rest) := by
  intro h
  have hk := utf8Check_stop ht hr hno
  rw [utf8Check_text h] at hk
  cases hk

theorem utf8Check_ok_iff (p : List Byte) : utf8Check p = .ok ↔ IsUtf8Text p := by
  refine ⟨fun hk => ?_, utf8Check_text⟩
  rcases utf8_text_or_stop p with h | ⟨t, rest, rfl, ht, hr, hno⟩
  · exact h
  · rw [utf8Check_stop ht hr hno] at hk
    cases hk

/-- The check answers a position exactly where the text stops. -/
theorem utf8Check_bad_iff (p : List Byte) (pos : Nat) : utf8Check p = .bad pos ↔
    ∃ t rest, p = t ++ rest ∧ t.length = pos ∧ IsUtf8Text t ∧ rest ≠ [] ∧ ∀ n, ¬ IsUtf8Sequence (rest.take n) := by
  constructor
  · intro hk
    rcases utf8_text_or_stop p with h | ⟨t, rest, rfl, ht, hr, hno⟩
    · rw [utf8Check_text h] at hk
      cases hk
    · rw [utf8Check_stop ht hr hno] at hk
      exact ⟨t, rest, rfl, Utf8Result.bad.inj hk, ht, hr, hno⟩
  · rintro ⟨t, rest, rfl, rfl, ht, hr, hno⟩
    exact utf8Check_stop ht hr hno

/-! ## ASCII, and the byte 0xC0 -/

theorem isUtf8Sequence_singleton_iff (b : Byte) : IsUtf8Sequence [b] ↔ b < 0x80#8 := by
  show b ≤ 0x7F#8 ↔ _
  constructor <;> intro h <;> bv_omega

theorem isUtf8Text_of_ascii {p : List Byte} (h : ∀ b ∈ p, b < 0x80#8) : IsUtf8Text p := by
  induction p with
  | nil => exact isUtf8Text_nil
  | cons b p ih =>
    have hb : IsUtf8Sequence [b] := (isUtf8Sequence_singleton_iff b).2 (h b (by simp))
    exact hb.text.append (ih fun c hc => h c (by simp [hc]))

theorem Fills.holds_of_mem {need : List ByteRange} {w : List Byte} (h : Fills need w) {b : Byte} (hb : b ∈ w) :
    ∃ r ∈ need, r.holds b = true := by
  induction h with
  | nil => simp at hb
  | cons hr _ ih =>
    rcases List.mem_cons.1 hb with rfl | hb
    · exact ⟨_, by simp, hr⟩
    · obtain ⟨r, hmem, hrb⟩ := ih hb
      exact ⟨r, by simp [hmem], hrb⟩

/-- No range of the table holds 0xC0. -/
theorem utf8Table_excludes_C0 : ∀ row ∈ utf8Table,
    row.first.holds 0xC0#8 = false ∧ ∀ r ∈ row.further, r.holds 0xC0#8 = false := by decide

theorem IsUtf8Sequence.no_C0 {q : List Byte} (h : IsUtf8Sequence q) : 0xC0#8 ∉ q := by
  obtain ⟨b, w, row, rfl, hrow, hb, hw⟩ := (isUtf8Sequence_iff_row q).1 h
  obtain ⟨hfirst, hfurther⟩ := utf8Table_excludes_C0 row hrow
  intro hmem
  rcases List.mem_cons.1 hmem with rfl | hmem
  · simp [hfirst] at hb
  · obtain ⟨r, hr, hrb⟩ := hw.holds_of_mem hmem
    simp [hfurther r hr] at hrb

theorem IsUtf8Text.no_C0 {p : List Byte} (h : IsUtf8Text p) : 0xC0#8 ∉ p := by
  obtain ⟨seqs, rfl, hseqs⟩ := h
  intro hmem
  obtain ⟨q, hq, hc⟩ := List.mem_flatten.1 hmem
  exact (hseqs q hq).no_C0 hc

/-! ## The statements -/

/-- Settles O24: the scan stops before the end of whatever is not text. -/
theorem utf8CheckAcceptsExactlyText : Obligations.Utf8CheckAcceptsExactlyText := by
  unfold Obligations.Utf8CheckAcceptsExactlyText
  exact utf8Check_ok_iff

/-- Settles O25: the position splits the payload in the text before it and a rest where no sequence begins. -/
theorem utf8CheckReportsTheFirstIllFormedSequence : Obligations.Utf8CheckReportsTheFirstIllFormedSequence := by
  unfold Obligations.Utf8CheckReportsTheFirstIllFormedSequence
  intro p pos
  rw [utf8Check_bad_iff]
  constructor
  · rintro ⟨t, rest, rfl, rfl, ht, hr, hno⟩
    have hlen := List.length_pos_iff.2 hr
    simp only [List.length_append, List.take_left, List.drop_left]
    exact ⟨by omega, ht, hno⟩
  · rintro ⟨hpos, ht, hno⟩
    exact ⟨p.take pos, p.drop pos, (List.take_append_drop pos p).symm, List.length_take_of_le hpos.le, ht,
      by simpa using hpos, hno⟩

/-- Settles O26: each ASCII byte is a sequence of its own, and no well-formed sequence holds 0xC0. -/
theorem asciiPassesAndByteC0Fails : Obligations.AsciiPassesAndByteC0Fails := by
  unfold Obligations.AsciiPassesAndByteC0Fails
  refine ⟨fun p h => utf8Check_text (isUtf8Text_of_ascii h), fun p hmem => ?_⟩
  cases hk : utf8Check p with
  | ok => exact absurd hmem ((utf8Check_ok_iff p).1 hk).no_C0
  | bad pos => exact ⟨pos, rfl⟩

/-- Settles O17: on text the handler only appends to HOST_OUT. -/
theorem debugWritesTextVerbatim : Obligations.DebugWritesTextVerbatim := by
  unfold Obligations.DebugWritesTextVerbatim
  exact fun p s htext => execDebug_text htext s

/-- Settles O18: on any other payload the handler raises the malformed-text condition, which is always fatal. -/
theorem debugReportsMalformedText : Obligations.DebugReportsMalformedText := by
  unfold Obligations.DebugReportsMalformedText
  intro p s hbad
  rcases execDebug_cases p s with ⟨-, htext, -⟩ | ⟨t, v, rest, hp, ht, hno, -, hexec⟩
  · exact absurd htext hbad
  · refine ⟨t, v, rest, hp, ht, hno, hexec.trans ?_⟩
    rw [raise_eq, Condition.isFatal, if_pos rfl]

end Sys2Proof.Machine
end

section
/-! What a step raises, and the invariant (60_exceptions.md R101, R105, R106, R115; 10_state.md R11). -/

namespace Sys2Proof.Machine

/-! ## The conditions a dispatch can raise -/

/-- The condition of a tag other than 0x0A and 0x00 fits its cause. -/
theorem tagCondition_fitsCause {tag : Byte} (hdebug : tagClass tag ≠ .debug) (hzero : tag ≠ 0x00#8) :
    (tagCondition tag).fitsCause := by
  unfold tagCondition
  cases hc : tagClass tag with
  | debug => exact absurd hc hdebug
  | unknown => exact ⟨hc, hzero⟩
  | _ => exact hc

/-- A dispatch raises its conditions in a cleared Decoder, which is what they say they leave. -/
theorem tagCondition_leaves (tag : Byte) {s : State} (hbuf : s.buf = []) (hesc : s.esc = false) :
    (tagCondition tag).leaves s := by
  unfold tagCondition
  cases tagClass tag <;> exact ⟨hbuf, hesc⟩

/-- Every ASCII byte is a sequence of its own, so text stops only at a byte from 0x80 up. -/
theorem byte_of_stop {v : Byte} {rest : List Byte} (hno : ∀ n, ¬ IsUtf8Sequence ((v :: rest).take n)) :
    0x80#8 ≤ v := by
  by_contra hlt
  exact hno 1 ((isUtf8Sequence_singleton_iff v).2 (BitVec.not_le.1 hlt))

/-- A feed raises nothing, or reports one condition that fits its cause and leaves what it says. -/
theorem FeedResult.cond_cases {b : Byte} {s t : State} (h : FeedResult b s t) :
    (t.cond = s.cond ∧ t.fault = s.fault) ∨
    ∃ c, t.cond = s.cond ++ [c] ∧ t.hostOut = s.hostOut ∧ t.fault = (if c.isFatal s.cfg then some c else s.fault) ∧
      c.fitsCause ∧ c.leaves t := by
  cases h with
  | overflow hdata hfull ht =>
    subst ht
    exact .inr ⟨.bufOverflow b, raise_cond .., raise_hostOut .., raise_fault .., hdata,
      by simpa [Condition.leaves] using hfull⟩
  | malformed _ text v rest _ _ hno ht =>
    subst ht
    exact .inr ⟨.malformedText text.length v, raise_cond .., raise_hostOut .., raise_fault .., byte_of_stop hno,
      by simp [Condition.leaves]⟩
  | condition _ tag p _ hf htag ht =>
    subst ht
    have hzero : tag ≠ 0x00#8 := by
      rintro rfl
      exact strip0_head_ne _ p hf
    exact .inr ⟨tagCondition tag, raise_cond .., raise_hostOut .., raise_fault .., tagCondition_fitsCause htag hzero,
      tagCondition_leaves tag (by simp) (by simp)⟩
  | _ => subst t; exact .inl (by simp)

/-! ## The invariant -/

/-- What a condition leaves is said of the parameters, the buffer and the flag only. -/
theorem Condition.leaves.congr {c : Condition} {s t : State} (h : c.leaves s) (hcfg : t.cfg = s.cfg)
    (hbuf : t.buf = s.buf) (hesc : t.esc = s.esc) : c.leaves t := by
  cases c <;> simpa [Condition.leaves, hcfg, hbuf, hesc] using h

/-- A block that runs meets the invariant when its buffer fits, its records do and its output is text. -/
theorem State.Inv.of_no_fault {s : State} (hs : s.fault = none)
    (hfit : ∀ n, s.cfg.bufCap = some n → s.buf.length ≤ n) (hcond : ∀ c ∈ s.cond, c.fitsCause)
    (htext : IsUtf8Text s.hostOut) : s.Inv where
  bufferFits := hfit
  condsFit := hcond
  faultReported c hc := by simp [hs] at hc
  faultLeaves c hc := by simp [hs] at hc
  textOut := htext

/-- HOST_OUT stays text: what a feed appends is text. -/
theorem FeedResult.textOut {b : Byte} {s t : State} (h : FeedResult b s t) (htext : IsUtf8Text s.hostOut) :
    IsUtf8Text t.hostOut := by
  rcases h.hostOut_cases with hout | ⟨p, -, -, -, hp, hout, -, -⟩
  · rwa [hout]
  · rw [hout]; exact htext.append hp

/-- A feed of a block that runs keeps the invariant. -/
theorem FeedResult.inv {b : Byte} {s t : State} (h : FeedResult b s t) (hs : s.fault = none) (hinv : s.Inv) :
    t.Inv := by
  obtain ⟨hcfg, -, -, -⟩ := h.untouched
  have hfit : ∀ n, t.cfg.bufCap = some n → t.buf.length ≤ n := fun n hn =>
    h.buf_fits (hcfg ▸ hn) (hinv.bufferFits n (hcfg ▸ hn))
  have htext := h.textOut hinv.textOut
  rcases h.cond_cases with ⟨hcond, hfault⟩ | ⟨c, hcond, -, hfault, hfits, hleaves⟩
  · exact .of_no_fault (hfault.trans hs) hfit (hcond ▸ hinv.condsFit) htext
  · have hrecord : ∀ k, t.fault = some k → k = c ∧ c.isFatal t.cfg = true := by
      intro k hk
      rw [hfault, hs] at hk
      split at hk
      · next hfatal => exact ⟨(Option.some.inj hk).symm, hcfg ▸ hfatal⟩
      · cases hk
    refine ⟨hfit, fun k hk => ?_, fun k hk => ?_, fun k hk => ?_, htext⟩
    · rw [hcond] at hk
      rcases List.mem_append.1 hk with hk | hk
      · exact hinv.condsFit k hk
      · exact List.mem_singleton.1 hk ▸ hfits
    · obtain ⟨rfl, hfatal⟩ := hrecord k hk
      exact ⟨by simp [hcond], hfatal⟩
    · obtain ⟨rfl, -⟩ := hrecord k hk
      exact hleaves

/-- Taking a byte off RX keeps the invariant, which does not speak of RX. -/
theorem State.Inv.taken {s : State} (h : s.Inv) (hs : s.fault = none) (rest : List Byte) : (s.taken rest).Inv :=
  .of_no_fault hs h.bufferFits h.condsFit h.textOut

theorem State.resetWith_inv (cfg : Config) : (State.resetWith cfg).Inv :=
  .of_no_fault rfl (fun n _ => n.zero_le) (fun _ hc => absurd hc List.not_mem_nil) isUtf8Text_nil

/-! ## The statements -/

/-- Settles O39: a step is idle, or it takes a byte and feeds it, and both keep the invariant. -/
theorem everyStepKeepsTheInvariant : Obligations.EveryStepKeepsTheInvariant := by
  unfold Obligations.EveryStepKeepsTheInvariant
  intro s t hinv hstep
  obtain ⟨hs, ⟨-, rfl⟩ | ⟨b, rest, -, hfeed⟩⟩ := step_inv hstep
  · exact hinv
  · exact hfeed.inv hs (hinv.taken hs rest)

/-- Settles O38: after reset the buffer, COND and HOST_OUT are empty and there is no fault. -/
theorem invariantHoldsAtReset : Obligations.InvariantHoldsAtReset := by
  unfold Obligations.InvariantHoldsAtReset
  exact ⟨State.resetWith_inv _, State.resetWith_inv⟩

/-- Settles O40: delivery and end of stream write RX only; a reset ends the fault and empties the buffer. -/
theorem environmentKeepsTheInvariant : Obligations.EnvironmentKeepsTheInvariant := by
  unfold Obligations.EnvironmentKeepsTheInvariant
  intro s ⟨hfit, hcond, hreported, hleaves, htext⟩
  exact ⟨fun _ => ⟨hfit, hcond, hreported, fun c hc => (hleaves c hc).congr rfl rfl rfl, htext⟩,
    ⟨hfit, hcond, hreported, fun c hc => (hleaves c hc).congr rfl rfl rfl, htext⟩,
    .of_no_fault rfl (fun n _ => n.zero_le) hcond htext⟩

/-- Settles O33: a step is idle, or it feeds one byte with one of the outcomes of `FeedResult.cond_cases`. -/
theorem stepRaisesAtMostOneCondition : Obligations.StepRaisesAtMostOneCondition := by
  unfold Obligations.StepRaisesAtMostOneCondition
  intro s t hstep
  obtain ⟨hs, ⟨-, rfl⟩ | ⟨b, rest, -, hfeed⟩⟩ := step_inv hstep
  · exact .inl ⟨rfl, hs⟩
  · rcases hfeed.cond_cases with ⟨hcond, hfault⟩ | ⟨c, hcond, hout, hfault, -, -⟩
    · exact .inl ⟨hcond, hfault.trans hs⟩
    · exact .inr ⟨c, hcond, hout, by rw [hfault, State.taken_fault, hs]; rfl⟩

/-- Settles O37: the values are those of `resetWith`; without its fault record a block with a byte on RX is enabled. -/
theorem resetLeavesTheStatedValues : Obligations.ResetLeavesTheStatedValues := by
  unfold Obligations.ResetLeavesTheStatedValues
  exact ⟨⟨rfl, rfl, rfl, rfl, rfl, rfl⟩, fun s => ⟨rfl, fun hrx => ⟨s.resetEvent_fault, hrx⟩⟩⟩

end Sys2Proof.Machine
end

section
/-! The Decoder's data rows (40_decoder.md R53, section 3), the note after R57, and the step by the byte at hand
(R50; 60_exceptions.md R107, R112). -/

namespace Sys2Proof.Machine

/-! ## The data rows -/

theorem feedData_room {s : State} (hroom : s.cfg.bufCap ≠ some s.buf.length) {b v : Byte}
    (hv : unescape s.esc b = v) : feedData b s = .next { s with buf := s.buf ++ [v], esc := false } := by
  rw [feedData_eq, if_neg hroom, hv]
  rfl

theorem feedData_full {s : State} (hfull : s.cfg.bufCap = some s.buf.length) (b : Byte) :
    feedData b s = .next { s with cond := s.cond ++ [.bufOverflow b], fault := some (.bufOverflow b) } := by
  rw [feedData_eq, if_pos hfull, raise_eq, Condition.isFatal, if_pos rfl]

theorem unescape_ESC_END (esc : Bool) : unescape esc wireESC_END = if esc then 0xC0#8 else 0xDC#8 := by
  cases esc <;> rfl

theorem unescape_ESC_ESC (esc : Bool) : unescape esc wireESC_ESC = if esc then 0xDB#8 else 0xDD#8 := by
  cases esc <;> rfl

theorem unescape_plain (esc : Bool) {b : Byte} (hb : isPlainData b = true) : unescape esc b = b :=
  unescape_of_ne (by rintro rfl; cases hb) (by rintro rfl; cases hb)

/-- Settles O2: the data rows are `feedData` of their byte, each with its own substitution. -/
theorem dataRowsAppendOneByte : Obligations.DataRowsAppendOneByte := by
  unfold Obligations.DataRowsAppendOneByte
  exact fun s hroom => ⟨feedData_room hroom (unescape_ESC_END s.esc), feedData_room hroom (unescape_ESC_ESC s.esc),
    feedData_room hroom (unescape_of_ne (b := wirePAD) (by decide) (by decide)),
    fun b hb => feedData_room hroom (unescape_plain s.esc hb)⟩

/-- Settles O3: in front of a full buffer the data rows raise the overflow of the byte as received. -/
theorem fullBufferOverflowsWithoutAppending : Obligations.FullBufferOverflowsWithoutAppending := by
  unfold Obligations.FullBufferOverflowsWithoutAppending
  exact fun s hfull => ⟨feedData_full hfull wireESC_END, feedData_full hfull wireESC_ESC, feedData_full hfull wirePAD,
    fun b _ => feedData_full hfull b⟩

/-! ## The strip on the fly -/

/-- One byte of the on-the-fly form: a zero in front of everything is not kept. -/
def keepUnlessLeadingZero (kept : List Byte) (v : Byte) : List Byte :=
  if kept = [] ∧ v = 0x00#8 then kept else kept ++ [v]

/-- Once a byte is kept, every byte is. -/
theorem foldl_keepUnlessLeadingZero {kept : List Byte} (hne : kept ≠ []) (bytes : List Byte) :
    bytes.foldl keepUnlessLeadingZero kept = kept ++ bytes := by
  induction bytes generalizing kept with
  | nil => simp
  | cons v bytes ih =>
    rw [List.foldl_cons, keepUnlessLeadingZero, if_neg (fun h => hne h.1), ih (by simp), List.append_assoc,
      List.singleton_append]

/-- Settles O48: by induction; a leading zero leaves the fold where it began, and the first other byte begins the kept
sequence. -/
theorem stripCanBeDoneOnTheFly : Obligations.StripCanBeDoneOnTheFly := by
  unfold Obligations.StripCanBeDoneOnTheFly
  intro bytes
  show strip0 bytes = bytes.foldl keepUnlessLeadingZero []
  induction bytes with
  | nil => rfl
  | cons v bytes ih =>
    by_cases hv : v = wirePAD
    · subst hv
      rw [strip0_zero, ih]
      rfl
    · rw [strip0_cons_ne hv, List.foldl_cons, keepUnlessLeadingZero, if_neg (fun h => hv h.2),
        foldl_keepUnlessLeadingZero (by simp)]
      rfl

/-! ## The step -/

/-- Settles O27: the step feeds the head byte, and its feed is `exec` of its instruction. -/
theorem stepRunsTheDecodedInstruction : Obligations.StepRunsTheDecodedInstruction := by
  unfold Obligations.StepRunsTheDecodedInstruction
  intro s b rest hs hrx
  obtain ⟨-, hwf, -⟩ := decodeByte_spec b
  exact ⟨hwf, step_feed hs hrx⟩

/-- Settles O29: without a byte there is nothing to feed and no `END` to emit at. -/
theorem idleBlockKeepsItsState : Obligations.IdleBlockKeepsItsState := by
  unfold Obligations.IdleBlockKeepsItsState
  intro s ⟨hs, hrx⟩
  exact ⟨step_idle hs hrx, by simp [emission, hs, hrx]⟩

/-- Settles O30: a fault answers every step, so that a run stays where it is. -/
theorem haltedBlockIgnoresTheStream : Obligations.HaltedBlockIgnoresTheStream := by
  unfold Obligations.HaltedBlockIgnoresTheStream
  intro s c chunk hc
  exact ⟨step_halted hc, process_halted (by simp [hc]) chunk, emissions_halted (s := s.deliver chunk) hc _⟩

end Sys2Proof.Machine
end

section
/-! The `END` step of an actionable frame: the outcome table of 41_dispatcher.md section 4, and the instruction of a
table word placed where the next step runs it (log entries 6, 7). -/

namespace Sys2Proof.Machine

/-! ## What a dispatch does by the class of the tag -/

theorem dispatch_debug {p : List Byte} (hp : p ≠ []) (s : State) :
    dispatch (0x0A#8 :: p) s = execDebug p (s.appendDiag (.frameReceived (0x0A#8 :: p))) :=
  dispatch_actionable 0x0A#8 hp s

theorem dispatch_not_debug {tag : Byte} (htag : tagClass tag ≠ .debug) {p : List Byte} (hp : p ≠ []) (s : State) :
    dispatch (tag :: p) s = .next (raise (tagCondition tag) (s.appendDiag (.frameReceived (tag :: p)))) := by
  rw [dispatch_actionable tag hp, ← route_eq_exec, route_not_debug htag]

theorem tagCondition_of_class {tag : Byte} :
    (tagClass tag = .ipv4 → tagCondition tag = .unimplemented .ipv4 tag) ∧
    (tagClass tag = .ipv6 → tagCondition tag = .unimplemented .ipv6 tag) ∧
    (tagClass tag = .coap → tagCondition tag = .unimplemented .coap tag) ∧
    (tagClass tag = .unknown → tagCondition tag = .unknownTag tag) := by
  unfold tagCondition
  refine ⟨fun h => ?_, fun h => ?_, fun h => ?_, fun h => ?_⟩ <;> rw [h]

/-- The `END` of an actionable frame hands tag and payload to the Dispatcher, with the Decoder cleared. -/
theorem step_END {s : State} {rest f : List Byte} (hs : s.fault = none) (hrx : s.rx = wireEND :: rest)
    (hf : strip0 s.buf = f) : step s = dispatch f (s.taken rest).clearBuf.clearEsc := by
  rw [step_feed hs hrx, feed_END, State.taken_buf, hf]

/-- Settles O23: a debug frame is printed or reported as malformed, any other raises the condition of its tag. -/
theorem endStepFollowsTheOutcomeTable : Obligations.EndStepFollowsTheOutcomeTable := by
  unfold Obligations.EndStepFollowsTheOutcomeTable
  intro s rest tag p hs hrx hf hp
  rw [step_END hs hrx hf]
  by_cases htag : tagClass tag = .debug
  · obtain rfl := tagClass_debug htag
    rw [dispatch_debug hp]
    have hothers : ¬ (0x45#8 : Byte) ≤ 0x0A#8 ∧ ¬ (0x60#8 : Byte) ≤ 0x0A#8 ∧ (0x0A#8 : Byte) ≠ 0xA9#8 ∧
      tagClass 0x0A#8 ≠ .unknown := by decide
    obtain ⟨h4, h6, hcoap, hunknown⟩ := hothers
    rcases execDebug_cases p ((s.taken rest).clearBuf.clearEsc.appendDiag (.frameReceived (0x0A#8 :: p))) with
      ⟨-, htext, hexec⟩ | ⟨t, v, q, rfl, ht, hno, -, hexec⟩
    · exact ⟨_, hexec, rfl, rfl, rfl, rfl, fun _ _ => ⟨rfl, rfl, hs⟩, fun _ hbad => absurd htext hbad,
        fun h => absurd h h4, fun h => absurd h h6, fun h => absurd h hcoap, fun h => absurd h hunknown⟩
    · have hbad := not_isUtf8Text_of_stop ht (List.cons_ne_nil v q) hno
      refine ⟨_, hexec, by simp, by simp, by simp, by simp, fun _ htext => absurd htext hbad, fun _ _ => ?_,
        fun h => absurd h h4, fun h => absurd h h6, fun h => absurd h hcoap, fun h => absurd h hunknown⟩
      exact ⟨by simp, t.length, v, by simp, by simp, by simp [Condition.isFatal]⟩
  · have hdebug : tag ≠ 0x0A#8 := by rintro rfl; exact htag rfl
    obtain ⟨hipv4, hipv6, hcoap, hunknown⟩ := tagCondition_of_class (tag := tag)
    rw [dispatch_not_debug htag hp]
    refine ⟨_, rfl, by simp, by simp, by simp, by simp, fun h => absurd h hdebug, fun h => absurd h hdebug,
      fun hlo hhi => ?_, fun hlo hhi => ?_, fun h => ?_, fun h => ?_⟩
    · rw [hipv4 (tagClass_ipv4 ⟨hlo, hhi⟩)]; simp [Condition.isFatal, hs]
    · rw [hipv6 (tagClass_ipv6 ⟨hlo, hhi⟩)]; simp [Condition.isFatal, hs]
    · rw [hcoap (by rw [h]; rfl)]; simp [Condition.isFatal, hs]
    · rw [hunknown h]; simp [Condition.isFatal]

/-! ## The host interface -/

theorem decodeTableWord_byte (w : Nat) : decodeTableWord 8 w = some (decodeTableByte (BitVec.ofNat 8 w)) := rfl

/-- A table byte is read as an RX byte, or as a tag other than 0x00 with one payload byte (log entry 6). -/
theorem decodeTableByte_cases (b : Byte) : decodeTableByte b = decodeByte b ∨
    (b ≠ 0x00#8 ∧ decodeTableByte b = decodeTag b [0x00#8]) := by
  by_cases hzero : b = 0x00#8
  · subst hzero
    exact .inl rfl
  · unfold decodeTableByte
    split
    · exact .inl rfl
    · split
      · exact .inr ⟨hzero, rfl⟩
      · split
        · exact .inl rfl
        · exact .inr ⟨hzero, rfl⟩

/-- A placed RXBYTE instruction is the byte the next step feeds. -/
theorem step_placeInstr_rxbyte {s : State} (hs : s.fault = none) {i : Instr} (hwf : i.wellFormed = true)
    (hfmt : i.format = .rxbyte) : step (s.placeInstr i) = exec i { s with rxpos := s.rxpos + 1 } := by
  obtain ⟨b, henc, hdec⟩ := encode_rxbyte hwf hfmt
  have hplace : s.placeInstr i = { s with rx := b :: s.rx } := by
    rw [State.placeInstr, hfmt, henc]
    rfl
  rw [hplace, step_feed (s := { s with rx := b :: s.rx }) hs rfl, feed, hdec]
  rfl

/-- A placed TAG instruction runs inside the `END` of its frame, if the strip leaves its tag. -/
theorem step_placeInstr_tag {s : State} (hs : s.fault = none) {t : Byte} {p : List Byte} (hp : p ≠ [])
    (ht : t ≠ 0x00#8) : step (s.placeInstr (decodeTag t p)) = exec (decodeTag t p) { s with
      buf := [], esc := false, rxpos := s.rxpos + 1, diag := s.diag ++ [.frameReceived (t :: p)] } := by
  obtain ⟨henc, -, hfmt⟩ := decodeTag_spec t hp
  have hplace : s.placeInstr (decodeTag t p) = { s with buf := t :: p, rx := wireEND :: s.rx } := by
    rw [State.placeInstr, hfmt, henc]
  rw [hplace, step_END (s := { s with buf := t :: p, rx := wireEND :: s.rx }) hs rfl (strip0_cons_ne ht p),
    dispatch_actionable t hp]
  rfl

/-- Settles O36: the table byte is an RX byte or a tag, and the placed instruction runs as such. -/
theorem placedTableWordRunsNext : Obligations.PlacedTableWordRunsNext := by
  unfold Obligations.PlacedTableWordRunsNext
  intro s w hs _
  have hplace : s.withFetchWord 8 w = s.placeInstr (decodeTableByte (BitVec.ofNat 8 w)) := by
    rw [State.withFetchWord, decodeTableWord_byte w]
  refine ⟨_, decodeTableWord_byte w, ?_⟩
  rw [hplace]
  rcases decodeTableByte_cases (BitVec.ofNat 8 w) with hrow | ⟨hzero, hrow⟩ <;> rw [hrow]
  · obtain ⟨-, hwf, hfmt⟩ := decodeByte_spec (BitVec.ofNat 8 w)
    exact ⟨hwf, fun _ => step_placeInstr_rxbyte hs hwf hfmt, fun htag => absurd (hfmt.symm.trans htag) (by decide)⟩
  · obtain ⟨-, hwf, hfmt⟩ := decodeTag_spec (BitVec.ofNat 8 w) (List.cons_ne_nil 0x00#8 [])
    exact ⟨hwf, fun hrx => absurd (hfmt.symm.trans hrx) (by decide),
      fun _ => ⟨_, step_placeInstr_tag hs (List.cons_ne_nil 0x00#8 []) hzero⟩⟩

end Sys2Proof.Machine
end

section
/-! Runs of a waiting block (40_decoder.md section 6, 20_memory.md R31, 10_state.md consequence I-3): chunks without
`END`, the reach of an escape, and the round trip of a frame. -/

namespace Sys2Proof.Machine

/-- Processing a chunk keeps the parameters, and a block that did not fault waits again. -/
theorem process_waiting {s : State} (hw : s.waiting) (chunk : List Byte) :
    (process chunk s).cfg = s.cfg ∧ ((process chunk s).fault = none → (process chunk s).waiting) := by
  induction chunk generalizing s with
  | nil => rw [process_nil]; exact ⟨rfl, fun _ => hw⟩
  | cons b bs ih =>
    obtain ⟨t, ht, hresult⟩ := feed_result b (s.taken [])
    obtain ⟨hcfg, hrx, -, -⟩ := hresult.untouched
    rw [(process_cons hw ht bs).1]
    by_cases hfault : t.fault = none
    · obtain ⟨ihcfg, ihwait⟩ := ih (s := t) ⟨hfault, hrx⟩
      exact ⟨ihcfg.trans hcfg, ihwait⟩
    · rw [process_halted hfault]
      exact ⟨hcfg, fun h => absurd h hfault⟩

/-! ## Chunks without `END` -/

/-- Inside a frame a feed writes nothing to HOST_OUT; it raises nothing and counts the byte in the buffer unless it is
`ESC`, or it meets a full buffer. -/
theorem FeedResult.inside_frame {b : Byte} {s t : State} (h : FeedResult b s t) (hb : b ≠ wireEND) :
    t.hostOut = s.hostOut ∧
    ((t.cond = s.cond ∧ t.fault = s.fault ∧ t.buf.length = s.buf.length + ([b].filter (· != wireESC)).length) ∨
      (s.cfg.bufCap ≠ none ∧ t.fault ≠ none)) := by
  cases h with
  | esc hesc ht =>
    subst ht hesc
    exact ⟨rfl, .inl ⟨rfl, rfl, rfl⟩⟩
  | append hdata _ ht =>
    subst ht
    have hesc : b ≠ wireESC := ((byteClass_data_iff b).1 hdata).1
    exact ⟨rfl, .inl ⟨rfl, rfl, by simp [hesc]⟩⟩
  | overflow _ hfull ht =>
    subst ht
    exact ⟨raise_hostOut .., .inr ⟨by simp [hfull], by simp [Condition.isFatal]⟩⟩
  | _ => contradiction

/-- The same of a whole chunk: no emission, nothing on HOST_OUT, and a count of the data bytes unless a finite buffer
overflowed. -/
theorem process_inside_frame {s : State} (hw : s.waiting) {chunk : List Byte} (hno : wireEND ∉ chunk) :
    (process chunk s).hostOut = s.hostOut ∧ emissionsOf chunk s = [] ∧
    (((process chunk s).cond = s.cond ∧ (process chunk s).fault = none ∧
        (process chunk s).buf.length = s.buf.length + (chunk.filter (· != wireESC)).length) ∨
      (s.cfg.bufCap ≠ none ∧ (process chunk s).fault ≠ none)) := by
  induction chunk generalizing s with
  | nil => rw [process_nil]; exact ⟨rfl, rfl, .inl ⟨rfl, hw.1, rfl⟩⟩
  | cons b bs ih =>
    obtain ⟨hb, hbs⟩ := List.ne_and_not_mem_of_not_mem_cons hno
    obtain ⟨t, ht, hresult⟩ := feed_result b (s.taken [])
    obtain ⟨hcfg, hrx, -, -⟩ := hresult.untouched
    obtain ⟨hout, hcases⟩ := hresult.inside_frame hb.symm
    obtain ⟨hproc, hemit⟩ := process_cons hw ht bs
    rw [hproc, hemit, if_neg hb.symm, List.nil_append]
    rcases hcases with ⟨hcond, hfault, hlen⟩ | ⟨hcap, hfault⟩
    · obtain ⟨ihout, ihemit, ihcases⟩ := ih (s := t) ⟨hfault.trans hw.1, hrx⟩ hbs
      refine ⟨ihout.trans hout, ihemit, ihcases.imp (fun ⟨ihcond, ihfault, ihlen⟩ => ?_) (fun ⟨hcap, hf⟩ => ?_)⟩
      · refine ⟨ihcond.trans hcond, ihfault, ?_⟩
        rw [ihlen, hlen, ← List.singleton_append (l := bs), List.filter_append, List.length_append, State.taken_buf,
          Nat.add_assoc]
      · exact ⟨hcfg ▸ hcap, hf⟩
    · obtain ⟨c, hc⟩ := Option.ne_none_iff_exists'.1 hfault
      rw [process_halted hfault]
      exact ⟨hout, emissions_halted (s := t.deliver bs) hc _, .inr ⟨hcap, hfault⟩⟩

/-- Settles O45: only a finite buffer lets a chunk without `END` raise anything. -/
theorem nothingLeavesBeforeTheEnd : Obligations.NothingLeavesBeforeTheEnd := by
  unfold Obligations.NothingLeavesBeforeTheEnd
  intro s chunk hw hno
  obtain ⟨hout, hemit, ⟨hcond, hfault, -⟩ | ⟨hcap, -⟩⟩ := process_inside_frame hw hno
  · exact ⟨hout, hemit, fun _ => ⟨hcond, hfault⟩⟩
  · exact ⟨hout, hemit, fun hinf => absurd hinf hcap⟩

/-- Settles O46: without a fault no byte overflowed, so each was counted. -/
theorem bufferCountsTheDataBytes : Obligations.BufferCountsTheDataBytes := by
  unfold Obligations.BufferCountsTheDataBytes
  intro s chunk hw hno hfault
  obtain ⟨-, -, ⟨-, -, hlen⟩ | ⟨-, hhalt⟩⟩ := process_inside_frame hw hno
  · exact hlen
  · exact absurd hfault hhalt

/-! ## Escapes -/

/-- Settles O8: by induction; each further `ESC` is counted and leaves the flag set. -/
theorem repeatedEscEqualsOneEsc : Obligations.RepeatedEscEqualsOneEsc := by
  unfold Obligations.RepeatedEscEqualsOneEsc
  intro n
  induction n with
  | zero =>
    intro s hw
    rw [List.replicate_succ, (process_ESC hw _).1, hw.taken_eq]
    exact process_nil _
  | succ n ih =>
    intro s hw
    rw [List.replicate_succ, (process_ESC hw _).1, ih (s.taken []).setEsc hw.taken, hw.taken_eq]
    simp only [State.setEsc, Nat.add_assoc, Nat.add_comm 1]

theorem State.room.of_succ {s : State} {n : Nat} (h : s.room (n + 1)) : s.room n := fun cap hcap =>
  Nat.le_of_succ_le (h cap hcap)

/-- A data byte that finds room leaves a waiting block with one place less. -/
theorem process_data_room {s : State} {n : Nat} (hw : s.waiting) (hroom : s.room (n + 1)) {v : Byte}
    (hv : byteClass v = .data) : (process [v] s).waiting ∧ (process [v] s).room n := by
  rw [(process_data hw hv hroom.not_full []).1, process_nil]
  refine ⟨hw.taken, fun cap hcap => ?_⟩
  have hfit := hroom cap hcap
  simp only [State.clearEsc_buf, State.appendBuf_buf, State.taken_buf, List.length_append, List.length_singleton]
  omega

/-- With the flag clear a data byte is appended as received. -/
theorem process_data_plain {s : State} (hw : s.waiting) (hesc : s.esc = false) (hroom : s.room 1) {w : Byte}
    (hdata : byteClass w = .data) : (process [w] s).buf = s.buf ++ [w] ∧ (process [w] s).esc = false := by
  simpa only [hesc, unescape_false] using process_data_single hw hroom hdata

/-- The data byte behind an escaped one is appended as received (40_decoder.md R63). -/
theorem process_ESC_data_data {s : State} (hw : s.waiting) (hroom : s.room 2) {v w : Byte}
    (hv : byteClass v = .data) (hdata : byteClass w = .data) :
    (process [wireESC, v, w] s).buf = (process [wireESC, v] s).buf ++ [w] ∧
      (process [wireESC, v, w] s).esc = false := by
  have hsplit : process [wireESC, v, w] s = process [w] (process [wireESC, v] s) :=
    (process_append [wireESC, v] [w] s).1
  have hstate : process [wireESC, v] s = process [v] (s.taken []).setEsc := (process_ESC hw [v]).1
  have hesc := (process_data_single (s := (s.taken []).setEsc) hw.taken hroom.of_succ hv).2
  obtain ⟨hwait, hleft⟩ := process_data_room (s := (s.taken []).setEsc) hw.taken hroom hv
  rw [hsplit, hstate]
  exact process_data_plain hwait hesc hleft hdata

/-- The data byte behind `ESC END` begins the next frame, as received. -/
theorem process_ESC_END_data {s : State} (hw : s.waiting) (hroom : s.room 2) {w : Byte} (hdata : byteClass w = .data)
    (hfault : (process [wireESC, wireEND] s).fault = none) : (process [wireESC, wireEND, w] s).buf = [w] := by
  have hsplit : process [wireESC, wireEND, w] s = process [w] (process [wireESC, wireEND] s) :=
    (process_append [wireESC, wireEND] [w] s).1
  obtain ⟨-, hbuf, hesc⟩ := process_ESC_END hw
  obtain ⟨hcfg, hwait⟩ := process_waiting hw [wireESC, wireEND]
  have hleft : (process [wireESC, wireEND] s).room 1 := by
    intro cap hcap
    have hfit := hroom cap (hcfg ▸ hcap)
    rw [hbuf, List.length_nil]
    omega
  rw [hsplit, (process_data_plain (hwait hfault) hesc hleft hdata).1, hbuf, List.nil_append]

/-- Settles O7: the two clauses above, and the source's example, which is the wire image of [0xC0, 0x01]. -/
theorem escapeReachesOneByteOnly : Obligations.EscapeReachesOneByteOnly := by
  unfold Obligations.EscapeReachesOneByteOnly
  refine ⟨fun s v w hw hroom hv hdata => process_ESC_data_data hw hroom hv hdata,
    fun s w hw hroom hdata hfault => process_ESC_END_data hw hroom hdata hfault, fun s ⟨hw, hbuf, hesc⟩ hroom => ?_⟩
  have hemit := (process_frameBytes hw hesc (f := [0xC0#8, 0x01#8]) hroom).2
  rw [hbuf] at hemit
  exact hemit

/-! ## Frames -/

/-- Settles O47: the stripped buffer is empty, and a dispatch of the empty sequence only records it on DIAG. -/
theorem doubledEndIsHarmless : Obligations.DoubledEndIsHarmless := by
  unfold Obligations.DoubledEndIsHarmless
  intro s ⟨hw, hbuf, hesc⟩
  have hfeed : feed wireEND (s.taken []) = .next ((s.taken []).clearBuf.clearEsc.appendDiag (.frameReceived [])) := by
    rw [feed_END, State.taken_buf, hbuf, strip0_nil, dispatch_short (by simp)]
  obtain ⟨hproc, hemit⟩ := process_cons hw hfeed []
  rw [hproc, hemit, process_nil, hbuf]
  exact ⟨rfl, ⟨hw.taken, rfl, rfl⟩, rfl, rfl⟩

/-- Settles O43: the block receives `F` behind the padding, the strip takes the padding away, and `END` dispatches the
rest from a cleared Decoder. -/
theorem stuffedFrameRoundTrip : Obligations.StuffedFrameRoundTrip := by
  unfold Obligations.StuffedFrameRoundTrip
  intro s z f hw hesc hbuf hroom
  obtain ⟨hfeed, hemit⟩ := process_frameBytes hw hesc hroom
  have hstrip : strip0 (s.buf ++ f) = strip0 f := by rw [hbuf, strip0_replicate_append]
  have hstate : ((s.received f).taken []).clearBuf.clearEsc =
      { s with buf := [], esc := false, rxpos := s.rxpos + (frameBytes f).length } := by
    simp [State.received, State.taken, State.clearBuf, State.clearEsc, frameBytes_length, hw.2, Nat.add_assoc]
  rw [feed_END, State.taken_buf, State.received_buf, hstrip, hstate] at hfeed
  exact ⟨hemit.trans (by rw [hstrip]), hfeed⟩

end Sys2Proof.Machine
end
